-- ==== Sys2Proof/Word.lean ====
section
/-! DEFINITION. The word, byte and register-index types (spec/00_scope.md R9, R10): every register, word, address
and the program counter are 32 bits wide, and `+`, `-`, `<<` on words are modulo 2^32 (R10), which is `BitVec`
arithmetic. -/

namespace Sys2Proof

/-- A 32-bit value: XLEN = 32 (R9). -/
abbrev Word := BitVec 32

/-- A byte of a byte image of the memory (R50: byte addresses). -/
abbrev Byte := BitVec 8

/-- A register field `rs`, `rt` or `rd`: the index 0..31 of a general register (R82, R89; NREG = 32, R9). -/
abbrev RegIdx := BitVec 5

end Sys2Proof
end

