-- ==== Sys2Proof/Config.lean ====
section
/-! DEFINITION. The implementation parameters of spec/00_scope.md R9. XLEN, NREG and LINK are fixed by the source
and stand in the types and in `linkRegister`; every other parameter is a field. The configuration is fixed for a run
(R143): State carries it as plain data, no step changes it, and every statement holds for all of them
(DESIGN CHOICE, log 1; safe). The model has no free value: no rule of the spec leaves a result open. -/

namespace Sys2Proof

/-- BYTE_ORDER (R9, R58): the byte order of a host-side byte image of a word. OPEN in the spec, and no program can
observe it. -/
inductive ByteOrder where
  | little
  | big
  deriving DecidableEq, Repr

/-- The named parameters of R9. -/
structure Config where
  /-- BASE: byte address of the first instruction-segment word, and the reset pc. -/
  base : Nat
  /-- IMEM_WORDS: instruction-segment capacity in words. -/
  imemWords : Nat
  /-- DMEM_WORDS: data-segment size in words. -/
  dmemWords : Nat
  /-- SP_INDEX: the register that reset presets. -/
  spIndex : Nat
  /-- SP_RESET: the value preset into `x[SP_INDEX]`. -/
  spReset : Word
  /-- R0_HARDWIRED: whether register 0 reads as zero and ignores writes. -/
  r0Hardwired : Bool
  /-- BYTE_ORDER. -/
  byteOrder : ByteOrder
  deriving DecidableEq, Repr

/-- DATA_BASE = BASE + 4*IMEM_WORDS (R9). -/
def Config.dataBase (c : Config) : Nat := c.base + 4 * c.imemWords

/-- DATA_END = DATA_BASE + 4*DMEM_WORDS (R9). -/
def Config.dataEnd (c : Config) : Nat := c.dataBase + 4 * c.dmemWords

/-- A configuration with the defaults of R9 for SP_INDEX (29), SP_RESET (DATA_END, modulo 2^32: log 4) and
R0_HARDWIRED (false). -/
def Config.withDefaults (base imemWords dmemWords : Nat) (order : ByteOrder) : Config where
  base := base
  imemWords := imemWords
  dmemWords := dmemWords
  spIndex := 29
  spReset := BitVec.ofNat 32 (base + 4 * imemWords + 4 * dmemWords)
  r0Hardwired := false
  byteOrder := order

/-- The reference configuration of R9, with which spec/95_test_vectors.md works. The spec claims no match with the
repository for the two segment sizes (D3; log 2), and leaves BYTE_ORDER open: little is a DESIGN CHOICE (log 6). -/
def Config.reference : Config := Config.withDefaults 0x00400000 1024 1024 .little

/-- LINK = 31: the register `jal` writes (R9, R23). -/
def linkRegister : RegIdx := 31

end Sys2Proof
end

