-- ==== Sys2Proof/Syntax.lean ====
section
/-! DEFINITION. The instructions: one constructor for each of the 18 rows of spec/opcode_table.json
(spec/30_encoding.md R90), and the decoded-instruction record of spec/40_datapath.md R112.

A constructor holds EVERY field of its format, in the order of the bits, the fields R91 says the instruction ignores
included: the retire record of R127 reports the fetched word and the decoded record, and both contain those fields
(DESIGN CHOICE, log 11; safe). Field widths stand in the types, so every term is an encodable instruction. -/

namespace Sys2Proof

/-- The 18 supported operations (R3). R-format fields: `rs rt rd shamt` (R82); I-format: `rs rt imm16` (R83);
J-format: `target26` (R84). -/
inductive Instr where
  /-- `sll rd, rt, shamt` (R150); `rs` ignored. -/
  | sll (rs rt rd : RegIdx) (shamt : BitVec 5)
  /-- `srl rd, rt, shamt` (R151); `rs` ignored. -/
  | srl (rs rt rd : RegIdx) (shamt : BitVec 5)
  /-- `jr rs` (R215); `rt`, `rd`, `shamt` ignored. -/
  | jr (rs rt rd : RegIdx) (shamt : BitVec 5)
  /-- `addu rd, rs, rt` (R152); `shamt` ignored. -/
  | addu (rs rt rd : RegIdx) (shamt : BitVec 5)
  /-- `subu rd, rs, rt` (R153); `shamt` ignored. -/
  | subu (rs rt rd : RegIdx) (shamt : BitVec 5)
  /-- `and rd, rs, rt` (R154); `shamt` ignored. -/
  | and (rs rt rd : RegIdx) (shamt : BitVec 5)
  /-- `or rd, rs, rt` (R155); `shamt` ignored. -/
  | or (rs rt rd : RegIdx) (shamt : BitVec 5)
  /-- `slt rd, rs, rt` (R156); `shamt` ignored. -/
  | slt (rs rt rd : RegIdx) (shamt : BitVec 5)
  /-- `j label` (R213). -/
  | j (target26 : BitVec 26)
  /-- `jal label` (R214). -/
  | jal (target26 : BitVec 26)
  /-- `beq rs, rt, label` (R211). -/
  | beq (rs rt : RegIdx) (imm16 : BitVec 16)
  /-- `bne rs, rt, label` (R212). -/
  | bne (rs rt : RegIdx) (imm16 : BitVec 16)
  /-- `addiu rt, rs, imm` (R170). -/
  | addiu (rs rt : RegIdx) (imm16 : BitVec 16)
  /-- `andi rt, rs, imm` (R171). -/
  | andi (rs rt : RegIdx) (imm16 : BitVec 16)
  /-- `ori rt, rs, imm` (R172). -/
  | ori (rs rt : RegIdx) (imm16 : BitVec 16)
  /-- `lui rt, imm` (R173); `rs` ignored. -/
  | lui (rs rt : RegIdx) (imm16 : BitVec 16)
  /-- `lw rt, offset(rs)` (R191). -/
  | lw (rs rt : RegIdx) (imm16 : BitVec 16)
  /-- `sw rt, offset(rs)` (R192). -/
  | sw (rs rt : RegIdx) (imm16 : BitVec 16)
  deriving DecidableEq, Repr

/-- The R-format operations, selected by `funct` under opcode 0 (R90). -/
inductive ROp where
  | sll | srl | jr | addu | subu | and | or | slt
  deriving DecidableEq, Repr

/-- The J-format operations (R84, R90). -/
inductive JOp where
  | j | jal
  deriving DecidableEq, Repr

/-- The I-format operations (R83, R90). -/
inductive IOp where
  | beq | bne | addiu | andi | ori | lui | lw | sw
  deriving DecidableEq, Repr

/-- The decoded-instruction record (R112): "exactly one variant is populated per decode". `imm` is the assembled
immediate of R85 and `target` the byte address of R87. -/
inductive Decoded where
  | r (rs rt rd : RegIdx) (shamt : BitVec 5) (funct : BitVec 6)
  | i (opcode : BitVec 6) (rs rt : RegIdx) (imm : Word)
  | j (opcode : BitVec 6) (target : Word)
  deriving DecidableEq, Repr

/-- Why a word is not an instruction (R94): its opcode is unsupported, or it is opcode 0 with an unsupported
funct. Both are fatal (R95). -/
inductive DecodeError where
  | unsupportedOpcode
  | unsupportedFunct
  deriving DecidableEq, Repr

end Sys2Proof
end

