-- ==== Sys2Proof/Decode.lean ====
section
/-! DEFINITION. Encoding and decoding (spec/30_encoding.md). The opcode and funct numbers stand ONCE, in `functCode`,
`jCode` and `iCode`; the decoder and the encoder are both derived from them, so that a correction changes data, not
rules (R90). The numbers themselves are the MIPS-I assignment, which the spec marks as general knowledge (D1, D2;
PRESUMED, log 13). Also here: the bit-field, extension and byte-order helpers (R10, R58, R85 to R87). -/

namespace Sys2Proof

/-! ### Extensions (R10) -/

/-- `sext_32` of a 16-bit value. -/
def sext32 (v : BitVec 16) : Word := v.signExtend 32

/-- `zext_32` of a 16-bit value. -/
def zext32 (v : BitVec 16) : Word := v.zeroExtend 32

/-- The absolute branch target that the decoder pre-computes (R86): `pc + 4 + (sext_32(imm16) << 2)`, modulo 2^32,
with the address of the branch itself as `pc` (D17, log 17). -/
def branchTarget (pc : Word) (imm16 : BitVec 16) : Word := pc + 4 + (sext32 imm16 <<< 2)

/-- The J-format target (R87): `zext_32(target26 ++ 0b00)`, a byte address, with no bits of the pc merged in. -/
def jumpTarget (target26 : BitVec 26) : Word := (target26 ++ 0#2).zeroExtend 32

/-! ### Byte images of a word (R58) -/

/-- The byte at offset `k` (0..3) of a word's image: offset 0 is the least significant byte in a little-endian
image, the most significant one in a big-endian image. -/
def byteOfWord (order : ByteOrder) (v : Word) (k : Nat) : Byte :=
  match order with
  | .little => v.extractLsb' (8 * k) 8
  | .big => v.extractLsb' (8 * (3 - k)) 8

/-- The word whose image is the four bytes `b0 b1 b2 b3`, `b0` at the lowest address. -/
def wordOfBytes (order : ByteOrder) (b0 b1 b2 b3 : Byte) : Word :=
  match order with
  | .little => b3 ++ b2 ++ b1 ++ b0
  | .big => b0 ++ b1 ++ b2 ++ b3

/-! ### Fields of an instruction word (R12, R82 to R84) -/

/-- `opcode = word[31:26]`. -/
def opcodeField (w : Word) : BitVec 6 := w.extractLsb' 26 6
/-- `rs = word[25:21]`. -/
def rsField (w : Word) : RegIdx := w.extractLsb' 21 5
/-- `rt = word[20:16]`. -/
def rtField (w : Word) : RegIdx := w.extractLsb' 16 5
/-- `rd = word[15:11]`. -/
def rdField (w : Word) : RegIdx := w.extractLsb' 11 5
/-- `shamt = word[10:6]`. -/
def shamtField (w : Word) : BitVec 5 := w.extractLsb' 6 5
/-- `funct = word[5:0]`. -/
def functField (w : Word) : BitVec 6 := w.extractLsb' 0 6
/-- `imm16 = word[15:0]`. -/
def immField (w : Word) : BitVec 16 := w.extractLsb' 0 16
/-- `target26 = word[25:0]`. -/
def targetField (w : Word) : BitVec 26 := w.extractLsb' 0 26

/-! ### The opcode map (R90): the one table -/

/-- Opcode 0 selects format R (R81). -/
def rOpcode : BitVec 6 := 0

/-- The funct of each R-format operation (R90, D2). -/
def functCode : ROp → BitVec 6
  | .sll => 0x00
  | .srl => 0x02
  | .jr => 0x08
  | .addu => 0x21
  | .subu => 0x23
  | .and => 0x24
  | .or => 0x25
  | .slt => 0x2A

/-- The opcode of each J-format operation (R90). -/
def jCode : JOp → BitVec 6
  | .j => 2
  | .jal => 3

/-- The opcode of each I-format operation (R90, D1). -/
def iCode : IOp → BitVec 6
  | .beq => 4
  | .bne => 5
  | .addiu => 9
  | .andi => 12
  | .ori => 13
  | .lui => 15
  | .lw => 35
  | .sw => 43

/-- The R-format operations, in the order of R90's second table. -/
def rOps : List ROp := [.sll, .srl, .jr, .addu, .subu, .and, .or, .slt]
/-- The J-format operations. -/
def jOps : List JOp := [.j, .jal]
/-- The I-format operations, in the order of R90's first table. -/
def iOps : List IOp := [.beq, .bne, .addiu, .andi, .ori, .lui, .lw, .sw]

/-- The supported operation of a funct under opcode 0, if there is one. -/
def rOpOf (funct : BitVec 6) : Option ROp := rOps.find? (functCode · == funct)
/-- The J-format operation of an opcode, if it is 2 or 3. -/
def jOpOf (opcode : BitVec 6) : Option JOp := jOps.find? (jCode · == opcode)
/-- The supported I-format operation of an opcode, if there is one. -/
def iOpOf (opcode : BitVec 6) : Option IOp := iOps.find? (iCode · == opcode)

/-! ### The decoder (R81, R113) -/

/-- The instruction of an R-format operation and its fields (R82). -/
def ROp.instr (op : ROp) (rs rt rd : RegIdx) (shamt : BitVec 5) : Instr :=
  match op with
  | .sll => .sll rs rt rd shamt
  | .srl => .srl rs rt rd shamt
  | .jr => .jr rs rt rd shamt
  | .addu => .addu rs rt rd shamt
  | .subu => .subu rs rt rd shamt
  | .and => .and rs rt rd shamt
  | .or => .or rs rt rd shamt
  | .slt => .slt rs rt rd shamt

/-- The instruction of a J-format operation and its field (R84). -/
def JOp.instr (op : JOp) (target26 : BitVec 26) : Instr :=
  match op with
  | .j => .j target26
  | .jal => .jal target26

/-- The instruction of an I-format operation and its fields (R83). -/
def IOp.instr (op : IOp) (rs rt : RegIdx) (imm16 : BitVec 16) : Instr :=
  match op with
  | .beq => .beq rs rt imm16
  | .bne => .bne rs rt imm16
  | .addiu => .addiu rs rt imm16
  | .andi => .andi rs rt imm16
  | .ori => .ori rs rt imm16
  | .lui => .lui rs rt imm16
  | .lw => .lw rs rt imm16
  | .sw => .sw rs rt imm16

/-- The decoder, total on every 32-bit word (R94): the opcode alone chooses the format (R81); fields the instruction
does not use are not checked (R91). An unsupported funct is rejected here, where the spec's ALU raises it (R117):
within an atomic step the outcome is the same (DEDUCED, log 12). -/
def decodeWord (w : Word) : Except DecodeError Instr :=
  if opcodeField w = rOpcode then
    match rOpOf (functField w) with
    | some op => .ok (op.instr (rsField w) (rtField w) (rdField w) (shamtField w))
    | none => .error .unsupportedFunct
  else
    match jOpOf (opcodeField w) with
    | some op => .ok (op.instr (targetField w))
    | none =>
      match iOpOf (opcodeField w) with
      | some op => .ok (op.instr (rsField w) (rtField w) (immField w))
      | none => .error .unsupportedOpcode

/-! ### The encoder (R82 to R84, R92) -/

/-- An R-format word (R82): opcode 0, `rs`, `rt`, `rd`, `shamt`, `funct`. -/
def encodeR (op : ROp) (rs rt rd : RegIdx) (shamt : BitVec 5) : Word :=
  rOpcode ++ rs ++ rt ++ rd ++ shamt ++ functCode op

/-- A J-format word (R84): `opcode`, `target26`. -/
def encodeJ (op : JOp) (target26 : BitVec 26) : Word := jCode op ++ target26

/-- An I-format word (R83): `opcode`, `rs`, `rt`, `imm16`. -/
def encodeI (op : IOp) (rs rt : RegIdx) (imm16 : BitVec 16) : Word := iCode op ++ rs ++ rt ++ imm16

/-- The word of an instruction. For a canonical instruction it is the canonical encoding of R92; the ignored fields
of any other stand in the word as they stand in the instruction. -/
def encode : Instr → Word
  | .sll rs rt rd shamt => encodeR .sll rs rt rd shamt
  | .srl rs rt rd shamt => encodeR .srl rs rt rd shamt
  | .jr rs rt rd shamt => encodeR .jr rs rt rd shamt
  | .addu rs rt rd shamt => encodeR .addu rs rt rd shamt
  | .subu rs rt rd shamt => encodeR .subu rs rt rd shamt
  | .and rs rt rd shamt => encodeR .and rs rt rd shamt
  | .or rs rt rd shamt => encodeR .or rs rt rd shamt
  | .slt rs rt rd shamt => encodeR .slt rs rt rd shamt
  | .j t => encodeJ .j t
  | .jal t => encodeJ .jal t
  | .beq rs rt imm => encodeI .beq rs rt imm
  | .bne rs rt imm => encodeI .bne rs rt imm
  | .addiu rs rt imm => encodeI .addiu rs rt imm
  | .andi rs rt imm => encodeI .andi rs rt imm
  | .ori rs rt imm => encodeI .ori rs rt imm
  | .lui rs rt imm => encodeI .lui rs rt imm
  | .lw rs rt imm => encodeI .lw rs rt imm
  | .sw rs rt imm => encodeI .sw rs rt imm

/-! ### The decoded record (R85, R112) -/

/-- The record of an R-format instruction. -/
def decodedR (op : ROp) (rs rt rd : RegIdx) (shamt : BitVec 5) : Decoded := .r rs rt rd shamt (functCode op)

/-- The record of a J-format instruction. -/
def decodedJ (op : JOp) (target26 : BitVec 26) : Decoded := .j (jCode op) (jumpTarget target26)

/-- The record of an I-format instruction whose assembled immediate is `imm`. -/
def decodedI (op : IOp) (rs rt : RegIdx) (imm : Word) : Decoded := .i (iCode op) rs rt imm

/-- The decoded-instruction record of an instruction fetched at `pc`: each immediate assembled as R85 says. -/
def decodedRecord (pc : Word) : Instr → Decoded
  | .sll rs rt rd shamt => decodedR .sll rs rt rd shamt
  | .srl rs rt rd shamt => decodedR .srl rs rt rd shamt
  | .jr rs rt rd shamt => decodedR .jr rs rt rd shamt
  | .addu rs rt rd shamt => decodedR .addu rs rt rd shamt
  | .subu rs rt rd shamt => decodedR .subu rs rt rd shamt
  | .and rs rt rd shamt => decodedR .and rs rt rd shamt
  | .or rs rt rd shamt => decodedR .or rs rt rd shamt
  | .slt rs rt rd shamt => decodedR .slt rs rt rd shamt
  | .j t => decodedJ .j t
  | .jal t => decodedJ .jal t
  | .beq rs rt imm => decodedI .beq rs rt (branchTarget pc imm)
  | .bne rs rt imm => decodedI .bne rs rt (branchTarget pc imm)
  | .addiu rs rt imm => decodedI .addiu rs rt (sext32 imm)
  | .andi rs rt imm => decodedI .andi rs rt (zext32 imm)
  | .ori rs rt imm => decodedI .ori rs rt (zext32 imm)
  | .lui rs rt imm => decodedI .lui rs rt (sext32 imm)
  | .lw rs rt imm => decodedI .lw rs rt (sext32 imm)
  | .sw rs rt imm => decodedI .sw rs rt (sext32 imm)

/-! ### Byte images of a program -/

/-- Decoding from a byte image (R58: a host-side view; R80: one instruction is one word): the instruction of the
first four bytes and the bytes after it, or `none` where fewer than four bytes are left. -/
def decodeBytes (order : ByteOrder) : List Byte → Option (Except DecodeError Instr × List Byte)
  | b0 :: b1 :: b2 :: b3 :: rest => some (decodeWord (wordOfBytes order b0 b1 b2 b3), rest)
  | _ => none

/-- The word of the host's number for a table row: `nbits` bits, and 0 above them. -/
def tableWord (nbits w : Nat) : Word := BitVec.ofNat 32 (w % 2 ^ nbits)

/-- The instruction the decoder reads from a table row's word, laid out in memory as a byte image and read back (any
byte order gives the same word, R58). -/
def decodeTableWord (nbits w : Nat) : Option Instr :=
  let image := (List.range 4).map (byteOfWord .little (tableWord nbits w))
  match decodeBytes .little image with
  | some (.ok i, _) => some i
  | some (.error _, _) => none
  | none => none

end Sys2Proof
end

