-- ==== Sys2Proof/Machine/State.lean ====
section
/-! DEFINITION. The machine state, as plain data (spec/10_state.md): the register file, the program counter, the
memory image and the run status; beside them the configuration the machine was built with and the records it has
given to the trace sink. -/

namespace Sys2Proof.Machine

/-- The fault record (R31, R230): the kind and what it records. A fault is TAKEN, not answered: the step that meets
it answers a NEXT state whose status is `faulted` with this record (R231; log 8), and nothing else of the machine
changes. No step answers `Host.Outcome.fault`. -/
inductive Fault where
  /-- Code 1. Raised by the decoder on a fetched word whose opcode is unsupported (R232). Safe: the machine stops for
  good with the record, as the spec says. -/
  | unsupportedOpcode (pc word : Word)
  /-- Code 2. Raised by the ALU on an R-format word whose funct is unsupported (R233). Safe, as above. -/
  | unsupportedFunct (pc word : Word)
  /-- Code 3. Raised by the address translator for a `lw` or `sw` whose effective address is misaligned or outside the
  data segment (R234). Safe, as above. -/
  | memoryFault (pc ea : Word)
  /-- Code 4. Raised by the fetch check on a misaligned pc or one outside the instruction segment (R235). Safe as to the
  spec; the fault is the spec's own decision D9 (log 15). -/
  | fetchFault (pc : Word)
  /-- Code 5. Raised by the loader that is offered more words than IMEM_WORDS, before the first step (R236). Safe. -/
  | programTooLarge (n : Nat)
  deriving DecidableEq, Repr

/-- Why a step has no meaning. -/
inductive Refusal where
  /-- Raised by a refused arm of `exec`: an instruction not modelled yet. No arm is one. Safe. -/
  | notModelled (mnemonic : String)
  /-- Raised by a step, and by the loader, on a configuration that is not well formed: "a model refuses any other
  configuration" (R9; log 21). Safe. -/
  | illFormedConfiguration
  deriving DecidableEq, Repr

/-- The run status (R30). -/
inductive RunStatus where
  /-- The next step may execute. -/
  | running
  /-- Stopped by the host between steps (R142). -/
  | halted
  /-- Stopped by a fatal error, with its record (R231, R265). -/
  | faulted (record : Fault)
  deriving DecidableEq, Repr

/-- The retire record of one completed step (R127). -/
structure Retire where
  /-- Address of the retired instruction. -/
  pc : Word
  /-- The fetched word. -/
  word : Word
  /-- The decoded instruction. -/
  decoded : Decoded
  /-- The written register and its value, or none (also where R0_HARDWIRED suppresses the write). -/
  reg : Option (RegIdx × Word)
  /-- The stored address and value, or none. -/
  mem : Option (Word × Word)
  /-- The next pc. -/
  nextPc : Word
  deriving DecidableEq, Repr

/-- What the core gives to the trace sink after a step (R141): a retire record, or the fault record. -/
inductive TraceRecord where
  | retired (r : Retire)
  | faulted (f : Fault)
  deriving DecidableEq, Repr

/-- The machine state. `regs`, `pc`, `mem` and `status` are the spec's (R20, R25, R32, R30); `cfg` is the
configuration (R9; log 1); `trace` is the sequence of records given to the trace sink so far, newest first (R141;
log 10). -/
structure State where
  cfg : Config
  regs : Vector Word 32
  pc : Word
  mem : List Host.Cell
  status : RunStatus
  trace : List TraceRecord
  deriving DecidableEq, Repr

/-- The state after reset of a machine built with configuration `c`, before any word is loaded (R35, R260): every
register 0 except `x[SP_INDEX] = SP_RESET`, `pc = BASE`, every memory word 0, Running, nothing emitted. -/
def State.resetWith (c : Config) : State where
  cfg := c
  regs := (Vector.replicate 32 0).setIfInBounds c.spIndex c.spReset
  pc := BitVec.ofNat 32 c.base
  mem := []
  status := .running
  trace := []

/-- The state after reset at the reference configuration (R9, R35). -/
def State.reset : State := State.resetWith Config.reference

end Sys2Proof.Machine
end

