-- ==== Sys2Proof/WellFormed.lean ====
section
/-! DEFINITION. The checks the spec makes on what is given to the machine: the six conditions on a configuration
(spec/00_scope.md R9: "a model refuses any other configuration") and the canonical spelling of an instruction
(spec/30_encoding.md R92). The widths of an instruction's fields need no check: they stand in the types of Instr.
The operand ranges of the assembler syntax (R98) are checked in Machine/Assembler.lean. -/

namespace Sys2Proof

/-- `BASE mod 4 = 0`. -/
def Config.baseAligned (c : Config) : Bool := c.base % 4 == 0

/-- `IMEM_WORDS >= 1`. -/
def Config.hasImem (c : Config) : Bool := decide (1 ≤ c.imemWords)

/-- `DMEM_WORDS >= 1`. -/
def Config.hasDmem (c : Config) : Bool := decide (1 ≤ c.dmemWords)

/-- `DATA_END <= 2^32`. -/
def Config.fitsAddressSpace (c : Config) : Bool := decide (c.dataEnd ≤ 2 ^ 32)

/-- `SP_INDEX` is in 0..31. -/
def Config.spInFile (c : Config) : Bool := decide (c.spIndex < 32)

/-- Not both `R0_HARDWIRED = true` and `SP_INDEX = 0`. -/
def Config.spNotHardwired (c : Config) : Bool := !(c.r0Hardwired && c.spIndex == 0)

/-- A well-formed configuration (R9). -/
def Config.wf (c : Config) : Bool :=
  c.baseAligned && c.hasImem && c.hasDmem && c.fitsAddressSpace && c.spInFile && c.spNotHardwired

/-- The canonical spelling (R92): 0 in every field the instruction does not use (R91). The decoder and the machine
accept the other spellings too. -/
def Instr.canonical : Instr → Bool
  | .sll rs _ _ _ => rs == 0
  | .srl rs _ _ _ => rs == 0
  | .jr _ rt rd shamt => rt == 0 && rd == 0 && shamt == 0
  | .addu _ _ _ shamt => shamt == 0
  | .subu _ _ _ shamt => shamt == 0
  | .and _ _ _ shamt => shamt == 0
  | .or _ _ _ shamt => shamt == 0
  | .slt _ _ _ shamt => shamt == 0
  | .j _ => true
  | .jal _ => true
  | .beq _ _ _ => true
  | .bne _ _ _ => true
  | .addiu _ _ _ => true
  | .andi _ _ _ => true
  | .ori _ _ _ => true
  | .lui rs _ _ => rs == 0
  | .lw _ _ _ => true
  | .sw _ _ _ => true

/-- The canonical instruction with the same used fields: 0 in every field R91 says is ignored. -/
def Instr.canonicalize : Instr → Instr
  | .sll _ rt rd shamt => .sll 0 rt rd shamt
  | .srl _ rt rd shamt => .srl 0 rt rd shamt
  | .jr rs _ _ _ => .jr rs 0 0 0
  | .addu rs rt rd _ => .addu rs rt rd 0
  | .subu rs rt rd _ => .subu rs rt rd 0
  | .and rs rt rd _ => .and rs rt rd 0
  | .or rs rt rd _ => .or rs rt rd 0
  | .slt rs rt rd _ => .slt rs rt rd 0
  | .j t => .j t
  | .jal t => .jal t
  | .beq rs rt imm => .beq rs rt imm
  | .bne rs rt imm => .bne rs rt imm
  | .addiu rs rt imm => .addiu rs rt imm
  | .andi rs rt imm => .andi rs rt imm
  | .ori rs rt imm => .ori rs rt imm
  | .lui _ rt imm => .lui 0 rt imm
  | .lw rs rt imm => .lw rs rt imm
  | .sw rs rt imm => .sw rs rt imm

end Sys2Proof
end

