-- ==== Sys2Proof/Machine/Ops.lean ====
section
/-! DEFINITION. The named operations over registers and memory, the address checks, completing a step and taking a
fault. Every meaning of an instruction is written over these. -/

namespace Sys2Proof.Machine

/-! ### Registers (spec/10_state.md R21) -/

/-- Whether a write to register `i` is suppressed and a read of it gives 0: R0_HARDWIRED and `i = 0`. -/
def hardwired (c : Config) (i : RegIdx) : Bool := c.r0Hardwired && i == 0

/-- `read(i)` of a register file. -/
def readFile (c : Config) (regs : Vector Word 32) (i : RegIdx) : Word :=
  if hardwired c i then 0 else regs[i.toNat]'(i.isLt)

/-- `write(i, v)` of a register file. -/
def writeFile (c : Config) (regs : Vector Word 32) (i : RegIdx) (v : Word) : Vector Word 32 :=
  if hardwired c i then regs else regs.set i.toNat v i.isLt

/-- `x[i]` (R11). -/
def State.readReg (s : State) (i : RegIdx) : Word := readFile s.cfg s.regs i

/-! ### Memory bytes

The memory image is one list of (byte address, byte) pairs in canonical form: addresses strictly rising, and no entry
equal to what an unlisted address reads as. -/

/-- What an unlisted address reads as: 0, since reset zeroes every word (spec/70_reset_and_hazards.md R263; log 7). -/
def unlistedByte : Byte := 0

/-- The canonical form. -/
abbrev Memory.wf (m : List Host.Cell) : Prop :=
  m.Pairwise (fun c d => c.1 < d.1) ∧ ∀ c ∈ m, c.2 ≠ unlistedByte

/-- The byte at an address. -/
def Memory.readByte : List Host.Cell → Nat → Byte
  | [], _ => unlistedByte
  | (k, v) :: m, a => if k = a then v else Memory.readByte m a

/-- An entry put before a list, left out where it equals what an unlisted address reads as. -/
def Memory.consByte (a : Nat) (b : Byte) (m : List Host.Cell) : List Host.Cell :=
  if b = unlistedByte then m else (a, b) :: m

/-- The memory with the byte at `a` replaced; it keeps the canonical form. -/
def Memory.writeByte : List Host.Cell → Nat → Byte → List Host.Cell
  | [], a, b => Memory.consByte a b []
  | (k, v) :: m, a, b =>
    if a < k then Memory.consByte a b ((k, v) :: m)
    else if a = k then Memory.consByte a b m
    else (k, v) :: Memory.writeByte m a b

/-! ### Memory words (spec/20_memory.md R55, R58): every access is one 32-bit word, laid out as `order` says -/

/-- The word whose bytes lie at `a`, `a+1`, `a+2`, `a+3`. -/
def Memory.readWord (order : ByteOrder) (m : List Host.Cell) (a : Nat) : Word :=
  wordOfBytes order (Memory.readByte m a) (Memory.readByte m (a + 1)) (Memory.readByte m (a + 2))
    (Memory.readByte m (a + 3))

/-- The memory with the word at `a` replaced. -/
def Memory.writeWord (order : ByteOrder) (m : List Host.Cell) (a : Nat) (v : Word) : List Host.Cell :=
  Memory.writeByte (Memory.writeByte (Memory.writeByte (Memory.writeByte m a (byteOfWord order v 0))
    (a + 1) (byteOfWord order v 1)) (a + 2) (byteOfWord order v 2)) (a + 3) (byteOfWord order v 3)

/-- The words `ws` placed from byte address `a` upwards (R264). -/
def Memory.writeWords (order : ByteOrder) (m : List Host.Cell) (a : Nat) : List Word → List Host.Cell
  | [] => m
  | w :: ws => Memory.writeWords order (Memory.writeWord order m a w) (a + 4) ws

/-- The memory word at byte address `a` of a state. -/
def State.wordAt (s : State) (a : Nat) : Word := Memory.readWord s.cfg.byteOrder s.mem a

/-! ### The address checks (R53, R54) -/

/-- The fetch check: `pc` a multiple of 4 in `[BASE, DATA_BASE)` (R54). -/
def fetchable (c : Config) (pc : Word) : Bool :=
  pc.toNat % 4 == 0 && decide (c.base ≤ pc.toNat) && decide (pc.toNat < c.dataBase)

/-- The data check: `ea` a multiple of 4 in `[DATA_BASE, DATA_END)`, unsigned (R53). -/
def accessible (c : Config) (ea : Word) : Bool :=
  ea.toNat % 4 == 0 && decide (c.dataBase ≤ ea.toNat) && decide (ea.toNat < c.dataEnd)

/-- The instruction-segment word at `pc`, if it can be fetched (R54). -/
def fetch (s : State) : Option Word :=
  if fetchable s.cfg s.pc then some (s.wordAt s.pc.toNat) else none

/-! ### Faults (spec/60_exceptions.md) -/

/-- The spec's codes (R230, D27). -/
def Fault.code : Fault → Nat
  | .unsupportedOpcode _ _ => 1
  | .unsupportedFunct _ _ => 2
  | .memoryFault _ _ => 3
  | .fetchFault _ => 4
  | .programTooLarge _ => 5

/-- The pc a fault record names, where it names one (R31). -/
def Fault.pc : Fault → Option Word
  | .unsupportedOpcode pc _ => some pc
  | .unsupportedFunct pc _ => some pc
  | .memoryFault pc _ => some pc
  | .fetchFault pc => some pc
  | .programTooLarge _ => none

/-- Taking a fault during a step (R231, R239): nothing is committed, the status becomes Faulted with the record, and
the record goes to the trace sink. There is no handler and no return (R240): the only way out of Faulted is a new
reset and load (Machine/HostControl.lean). -/
def takeFault (f : Fault) (s : State) : State :=
  { s with status := .faulted f, trace := .faulted f :: s.trace }

/-- The fault of a word the decoder rejects (R232, R233): the pc and the word are recorded. -/
def decodeFault (e : DecodeError) (pc word : Word) : Fault :=
  match e with
  | .unsupportedOpcode => .unsupportedOpcode pc word
  | .unsupportedFunct => .unsupportedFunct pc word

/-! ### Completing a step (spec/40_datapath.md R124, R127) -/

/-- The address after the instruction, modulo 2^32 (R118, R214): the sequential next pc and the link value. -/
def sequentialPc (s : State) : Word := s.pc + 4

/-- The three possible writes of a step (R124): a register (R122), a data word (R121) and the pc (R118). -/
structure Effect where
  reg : Option (RegIdx × Word) := none
  store : Option (Word × Word) := none
  nextPc : Word
  deriving DecidableEq, Repr

/-- The register write the retire record reports: none where R0_HARDWIRED suppresses it (R127, D19). -/
def reportedReg (c : Config) (reg : Option (RegIdx × Word)) : Option (RegIdx × Word) :=
  match reg with
  | some (d, v) => if hardwired c d then none else some (d, v)
  | none => none

/-- The register file after the write of R122. -/
def commitRegs (c : Config) (regs : Vector Word 32) (reg : Option (RegIdx × Word)) : Vector Word 32 :=
  match reg with
  | some (d, v) => writeFile c regs d v
  | none => regs

/-- The memory after the store of R121. -/
def commitStore (c : Config) (m : List Host.Cell) (store : Option (Word × Word)) : List Host.Cell :=
  match store with
  | some (a, v) => Memory.writeWord c.byteOrder m a.toNat v
  | none => m

/-- The retire record of a step of `i` at `s` with effect `e` (R127). -/
def retireRecord (i : Instr) (e : Effect) (s : State) : Retire where
  pc := s.pc
  word := encode i
  decoded := decodedRecord s.pc i
  reg := reportedReg s.cfg e.reg
  mem := e.store
  nextPc := e.nextPc

/-- The commit of a step that met no fault: all its writes, and the retire record to the trace sink (R124, R125). -/
def commit (i : Instr) (e : Effect) (s : State) : State :=
  { s with
    regs := commitRegs s.cfg s.regs e.reg
    pc := e.nextPc
    mem := commitStore s.cfg s.mem e.store
    trace := .retired (retireRecord i e s) :: s.trace }

/-- A completed step. -/
def complete (i : Instr) (e : Effect) (s : State) : Host.Outcome State Fault Refusal := .next (commit i e s)

/-- A completed step whose only effects are a register write and the sequential advance of the pc (arc SEQ, R119). -/
def completeReg (i : Instr) (d : RegIdx) (v : Word) (s : State) : Host.Outcome State Fault Refusal :=
  complete i { reg := some (d, v), nextPc := sequentialPc s } s

/-- A completed step that only sets the pc (arcs BRANCH, JUMP, REG and a branch not taken, R119). -/
def completeJump (i : Instr) (target : Word) (s : State) : Host.Outcome State Fault Refusal :=
  complete i { nextPc := target } s

/-! ### Placing an instruction where the next step fetches -/

/-- The state with the 32-bit word stored at the pc: what the loader does for the word of that address (R140). -/
def placeWord (s : State) (nbits w : Nat) : State :=
  { s with mem := Memory.writeWord s.cfg.byteOrder s.mem s.pc.toNat (tableWord nbits w) }

end Sys2Proof.Machine
end

