-- ==== Sys2Proof/Machine/Flags.lean ====
section
/-! DEFINITION. The datapath has no flags, condition codes or predicates (spec/10_state.md R28): no instruction sets
or reads one, and `addu`, `subu`, `addiu` record no carry or overflow. What stands here are the two conditions the
datapath computes within a step: the branch test on the ALU difference, and the signed comparison of `slt`. -/

namespace Sys2Proof.Machine

/-- The ALU result of a branch (R116, R117): `x[rs] - x[rt]`, "zero iff equal". -/
def branchDifference (s : State) (rs rt : RegIdx) : Word := s.readReg rs - s.readReg rt

/-- The next pc of a branch to `target` (R118): the target where `taken`, else `pc + 4`. -/
def branchPc (s : State) (taken : Bool) (target : Word) : Word := if taken then target else sequentialPc s

/-- The result of `slt` (spec/41_register_alu.md R156): 1 where `signed(a) < signed(b)`, else 0. -/
def setLessThan (a b : Word) : Word := if a.toInt < b.toInt then 1 else 0

end Sys2Proof.Machine
end

