-- ==== Sys2Proof/Machine/Operands.lean ====
section
/-! DEFINITION. The operand forms (spec/30_encoding.md R85, R89): a register field names `x[field]` directly; the
16-bit immediate is sign-extended, zero-extended, shifted into the upper half, or a byte offset from a base register.
There is no other form. -/

namespace Sys2Proof.Machine

/-- The effective byte address of `lw` and `sw` (spec/43_load_store.md R190): `x[rs] + sext_32(imm16)`, modulo 2^32,
the offset not scaled. -/
def effectiveAddress (s : State) (rs : RegIdx) (imm16 : BitVec 16) : Word := s.readReg rs + sext32 imm16

/-- The value of `lui` (R88, spec/42_immediate_alu.md R173): `sext_32(imm16) << 16`. -/
def upperImmediate (imm16 : BitVec 16) : Word := sext32 imm16 <<< 16

/-- A left shift by a `shamt` field (R150): bits past bit 31 are lost, zeros enter at bit 0. -/
def shiftLeft (v : Word) (shamt : BitVec 5) : Word := v <<< shamt.toNat

/-- A logical right shift by a `shamt` field (R151): zeros enter at bit 31. -/
def shiftRight (v : Word) (shamt : BitVec 5) : Word := v >>> shamt.toNat

end Sys2Proof.Machine
end

