-- ==== Sys2Proof/Machine/ControlTransfer.lean ====
section
/-! DEFINITION. The control-transfer instructions (spec/44_control_transfer.md). The new pc takes effect for the very
next fetch: there is no delay slot (R210). No target is checked here; a bad one is a FetchFault of the next step
(R216). Only `jal` writes a register. -/

namespace Sys2Proof.Machine

/-- R211: taken where the ALU difference is 0. -/
def execBeq (rs rt : RegIdx) (imm16 : BitVec 16) (s : State) : Host.Outcome State Fault Refusal :=
  completeJump (.beq rs rt imm16) (branchPc s (branchDifference s rs rt == 0) (branchTarget s.pc imm16)) s

/-- R212: taken where the ALU difference is not 0. -/
def execBne (rs rt : RegIdx) (imm16 : BitVec 16) (s : State) : Host.Outcome State Fault Refusal :=
  completeJump (.bne rs rt imm16) (branchPc s (branchDifference s rs rt != 0) (branchTarget s.pc imm16)) s

/-- R213: `pc <- target26 * 4`. -/
def execJ (target26 : BitVec 26) (s : State) : Host.Outcome State Fault Refusal :=
  completeJump (.j target26) (jumpTarget target26) s

/-- R214: `x[31] <- pc + 4`, `pc <- target26 * 4`. -/
def execJal (target26 : BitVec 26) (s : State) : Host.Outcome State Fault Refusal :=
  complete (.jal target26) { reg := some (linkRegister, sequentialPc s), nextPc := jumpTarget target26 } s

/-- R215: `pc <- x[rs]`, neither checked nor masked. -/
def execJr (rs rt rd : RegIdx) (shamt : BitVec 5) (s : State) : Host.Outcome State Fault Refusal :=
  completeJump (.jr rs rt rd shamt) (s.readReg rs) s

end Sys2Proof.Machine
end

