-- ==== Sys2Proof/Machine/ImmediateAlu.lean ====
section
/-! DEFINITION. The immediate ALU instructions (spec/42_immediate_alu.md). Each writes `x[rt]` and sets
`pc <- pc + 4`; none raises a fault or touches memory. -/

namespace Sys2Proof.Machine

/-- R170: `x[rt] <- x[rs] + sext_32(imm16)`, modulo 2^32. -/
def execAddiu (rs rt : RegIdx) (imm16 : BitVec 16) (s : State) : Host.Outcome State Fault Refusal :=
  completeReg (.addiu rs rt imm16) rt (s.readReg rs + sext32 imm16) s

/-- R171: `x[rt] <- x[rs] & zext_32(imm16)`. -/
def execAndi (rs rt : RegIdx) (imm16 : BitVec 16) (s : State) : Host.Outcome State Fault Refusal :=
  completeReg (.andi rs rt imm16) rt (s.readReg rs &&& zext32 imm16) s

/-- R172: `x[rt] <- x[rs] | zext_32(imm16)`. -/
def execOri (rs rt : RegIdx) (imm16 : BitVec 16) (s : State) : Host.Outcome State Fault Refusal :=
  completeReg (.ori rs rt imm16) rt (s.readReg rs ||| zext32 imm16) s

/-- R173: `x[rt] <- sext_32(imm16) << 16`; `x[rs]` is not used. -/
def execLui (rs rt : RegIdx) (imm16 : BitVec 16) (s : State) : Host.Outcome State Fault Refusal :=
  completeReg (.lui rs rt imm16) rt (upperImmediate imm16) s

end Sys2Proof.Machine
end

