-- ==== Sys2Proof/Machine/LoadStore.lean ====
section
/-! DEFINITION. The two memory instructions (spec/43_load_store.md): one aligned 32-bit word of the data segment, or a
MemoryFault taken before any register or memory mutation (R194). -/

namespace Sys2Proof.Machine

/-- The data check in front of a load or store (R53, R120): the access goes on at `ea`, or the step takes
MemoryFault(pc, ea). -/
def withDataAddress (s : State) (ea : Word) (access : Host.Outcome State Fault Refusal) :
    Host.Outcome State Fault Refusal :=
  if accessible s.cfg ea then access else .next (takeFault (.memoryFault s.pc ea) s)

/-- R191: `x[rt] <- MemRead(ea, 4)`, `pc <- pc + 4`; `rt = rs` forms the address from the old base (R126). -/
def execLw (rs rt : RegIdx) (imm16 : BitVec 16) (s : State) : Host.Outcome State Fault Refusal :=
  withDataAddress s (effectiveAddress s rs imm16)
    (completeReg (.lw rs rt imm16) rt (s.wordAt (effectiveAddress s rs imm16).toNat) s)

/-- R192: `MemWrite(ea, 4, x[rt])`, `pc <- pc + 4`. -/
def execSw (rs rt : RegIdx) (imm16 : BitVec 16) (s : State) : Host.Outcome State Fault Refusal :=
  withDataAddress s (effectiveAddress s rs imm16)
    (complete (.sw rs rt imm16)
      { store := some (effectiveAddress s rs imm16, s.readReg rt), nextPc := sequentialPc s } s)

end Sys2Proof.Machine
end

