-- ==== Sys2Proof/Machine/RegisterAlu.lean ====
section
/-! DEFINITION. The register-register ALU and shift instructions (spec/41_register_alu.md). Each writes `x[rd]` from
operands read before the write (R126) and sets `pc <- pc + 4`; none raises a fault or touches memory. The field R91
says is ignored is passed on to the retire record only. -/

namespace Sys2Proof.Machine

/-- R150: `x[rd] <- x[rt] << shamt`. -/
def execSll (rs rt rd : RegIdx) (shamt : BitVec 5) (s : State) : Host.Outcome State Fault Refusal :=
  completeReg (.sll rs rt rd shamt) rd (shiftLeft (s.readReg rt) shamt) s

/-- R151: `x[rd] <- x[rt] >>u shamt`. -/
def execSrl (rs rt rd : RegIdx) (shamt : BitVec 5) (s : State) : Host.Outcome State Fault Refusal :=
  completeReg (.srl rs rt rd shamt) rd (shiftRight (s.readReg rt) shamt) s

/-- R152: `x[rd] <- x[rs] + x[rt]`, modulo 2^32. -/
def execAddu (rs rt rd : RegIdx) (shamt : BitVec 5) (s : State) : Host.Outcome State Fault Refusal :=
  completeReg (.addu rs rt rd shamt) rd (s.readReg rs + s.readReg rt) s

/-- R153: `x[rd] <- x[rs] - x[rt]`, modulo 2^32. -/
def execSubu (rs rt rd : RegIdx) (shamt : BitVec 5) (s : State) : Host.Outcome State Fault Refusal :=
  completeReg (.subu rs rt rd shamt) rd (s.readReg rs - s.readReg rt) s

/-- R154: `x[rd] <- x[rs] & x[rt]`. -/
def execAnd (rs rt rd : RegIdx) (shamt : BitVec 5) (s : State) : Host.Outcome State Fault Refusal :=
  completeReg (.and rs rt rd shamt) rd (s.readReg rs &&& s.readReg rt) s

/-- R155: `x[rd] <- x[rs] | x[rt]`. -/
def execOr (rs rt rd : RegIdx) (shamt : BitVec 5) (s : State) : Host.Outcome State Fault Refusal :=
  completeReg (.or rs rt rd shamt) rd (s.readReg rs ||| s.readReg rt) s

/-- R156: `x[rd] <- if signed(x[rs]) < signed(x[rt]) then 1 else 0`. -/
def execSlt (rs rt rd : RegIdx) (shamt : BitVec 5) (s : State) : Host.Outcome State Fault Refusal :=
  completeReg (.slt rs rt rd shamt) rd (setLessThan (s.readReg rs) (s.readReg rt)) s

end Sys2Proof.Machine
end

