-- ==== Sys2Proof/Machine/Dispatch.lean ====
section
/-! DEFINITION. The dispatch: one arm for each instruction, one direct call of its meaning. -/

namespace Sys2Proof.Machine

def exec (i : Instr) (s : State) : Host.Outcome State Fault Refusal :=
  match i with
  | .sll rs rt rd shamt => Sys2Proof.Machine.execSll rs rt rd shamt s
  | .srl rs rt rd shamt => Sys2Proof.Machine.execSrl rs rt rd shamt s
  | .jr rs rt rd shamt => Sys2Proof.Machine.execJr rs rt rd shamt s
  | .addu rs rt rd shamt => Sys2Proof.Machine.execAddu rs rt rd shamt s
  | .subu rs rt rd shamt => Sys2Proof.Machine.execSubu rs rt rd shamt s
  | .and rs rt rd shamt => Sys2Proof.Machine.execAnd rs rt rd shamt s
  | .or rs rt rd shamt => Sys2Proof.Machine.execOr rs rt rd shamt s
  | .slt rs rt rd shamt => Sys2Proof.Machine.execSlt rs rt rd shamt s
  | .j target26 => Sys2Proof.Machine.execJ target26 s
  | .jal target26 => Sys2Proof.Machine.execJal target26 s
  | .beq rs rt imm16 => Sys2Proof.Machine.execBeq rs rt imm16 s
  | .bne rs rt imm16 => Sys2Proof.Machine.execBne rs rt imm16 s
  | .addiu rs rt imm16 => Sys2Proof.Machine.execAddiu rs rt imm16 s
  | .andi rs rt imm16 => Sys2Proof.Machine.execAndi rs rt imm16 s
  | .ori rs rt imm16 => Sys2Proof.Machine.execOri rs rt imm16 s
  | .lui rs rt imm16 => Sys2Proof.Machine.execLui rs rt imm16 s
  | .lw rs rt imm16 => Sys2Proof.Machine.execLw rs rt imm16 s
  | .sw rs rt imm16 => Sys2Proof.Machine.execSw rs rt imm16 s

end Sys2Proof.Machine
end

