-- ==== Sys2Proof/Machine/Cycle.lean ====
section
/-! DEFINITION. One step request (spec/40_datapath.md R110, R125, R142). The whole step composed from the sub-blocks
stands in Machine/Datapath.lean; this one runs the meaning of the decoded instruction. -/

namespace Sys2Proof.Machine

/-- The fetched word is decoded and executed, or the decoder's fault is taken (R113, R232, R233). -/
def decodeAndExecute (w : Word) (s : State) : Host.Outcome State Fault Refusal :=
  match decodeWord w with
  | .ok i => exec i s
  | .error e => .next (takeFault (decodeFault e s.pc w) s)

/-- One step of a running machine: fetch, then decode and execute, or FetchFault(pc) (R54, R235). -/
def runCycle (s : State) : Host.Outcome State Fault Refusal :=
  match fetch s with
  | some w => decodeAndExecute w s
  | none => .next (takeFault (.fetchFault s.pc) s)

/-- A step request (R142): it performs one step when the status is Running and does nothing when it is Halted or
Faulted (R247). A configuration that is not well formed is refused (R9). -/
def stepRequest (s : State) : Host.Outcome State Fault Refusal :=
  if s.cfg.wf then
    match s.status with
    | .running => runCycle s
    | .halted => .next s
    | .faulted _ => .next s
  else .refused .illFormedConfiguration

end Sys2Proof.Machine
end

