-- ==== Sys2Proof/Machine/Step.lean ====
section
/-! DEFINITION. The step of the machine: one step request of the host. -/

namespace Sys2Proof.Machine

/-- One step request (R142; Machine/Cycle.lean). -/
def step (s : State) : Host.Outcome State Fault Refusal := stepRequest s

/-- `s` with the instruction of a table row's word stored where `step` fetches its next instruction: the
instruction-segment word at the pc. From `State.reset` this stands for the loader, which places a program's first word
at BASE (R140, R264; log 23). -/
def State.withFetchWord (s : State) (nbits w : Nat) : State := placeWord s nbits w

end Sys2Proof.Machine
end

