-- ==== Sys2Proof/Machine/Assembler.lean ====
section
/-! DEFINITION. The spec's own assembly notation (spec/30_encoding.md R98, R99, spec/10_state.md R24), as data: the
operands of each form, what the assembler refuses, the pseudo-instructions and the register names. No part of the
machine reads it. -/

namespace Sys2Proof.Machine

/-! ### Register names (R24) -/

/-- The conventional aliases, in the order of the indexes 0..31; accepted as spellings only. -/
def registerAliases : List String :=
  ["$zero", "$at", "$v0", "$v1", "$a0", "$a1", "$a2", "$a3"] ++
  ["$t0", "$t1", "$t2", "$t3", "$t4", "$t5", "$t6", "$t7"] ++
  ["$s0", "$s1", "$s2", "$s3", "$s4", "$s5", "$s6", "$s7"] ++
  ["$t8", "$t9", "$k0", "$k1", "$gp", "$sp", "$fp", "$ra"]

/-- The spellings by number, `$0` .. `$31`. -/
def registerNumbers : List String :=
  ["$0", "$1", "$2", "$3", "$4", "$5", "$6", "$7", "$8", "$9", "$10", "$11", "$12", "$13", "$14", "$15"] ++
  ["$16", "$17", "$18", "$19", "$20", "$21", "$22", "$23", "$24", "$25", "$26", "$27", "$28", "$29", "$30", "$31"]

/-- The register a name spells. -/
def registerOfName (name : String) : Option RegIdx :=
  match registerNumbers.idxOf? name with
  | some k => some (BitVec.ofNat 5 k)
  | none => (registerAliases.idxOf? name).map (BitVec.ofNat 5)

/-! ### Assembly forms (R98) -/

/-- An assembly line: operands destination first, as R98 lists them; a label is the byte address it stands for. -/
inductive Asm where
  | sll (rd rt : RegIdx) (shamt : BitVec 5)
  | srl (rd rt : RegIdx) (shamt : BitVec 5)
  | jr (rs : RegIdx)
  | addu (rd rs rt : RegIdx)
  | subu (rd rs rt : RegIdx)
  | and (rd rs rt : RegIdx)
  | or (rd rs rt : RegIdx)
  | slt (rd rs rt : RegIdx)
  | j (label : Nat)
  | jal (label : Nat)
  | beq (rs rt : RegIdx) (label : Nat)
  | bne (rs rt : RegIdx) (label : Nat)
  | addiu (rt rs : RegIdx) (imm : Int)
  | andi (rt rs : RegIdx) (imm : Int)
  | ori (rt rs : RegIdx) (imm : Int)
  | lui (rt : RegIdx) (imm : Int)
  | lw (rt : RegIdx) (offset : Int) (rs : RegIdx)
  | sw (rt : RegIdx) (offset : Int) (rs : RegIdx)
  deriving DecidableEq, Repr

/-- A signed 16-bit operand: -32768 .. 32767. -/
def signedField (n : Int) : Option (BitVec 16) :=
  if -32768 ≤ n ∧ n ≤ 32767 then some (BitVec.ofInt 16 n) else none

/-- An unsigned 16-bit operand: 0 .. 65535. -/
def unsignedField (n : Int) : Option (BitVec 16) :=
  if 0 ≤ n ∧ n ≤ 65535 then some (BitVec.ofInt 16 n) else none

/-- `target26 = label >> 2`; refused where `label mod 4 /= 0` or `label >= 2^28`. -/
def jumpField (label : Nat) : Option (BitVec 26) :=
  if label % 4 = 0 ∧ label < 2 ^ 28 then some (BitVec.ofNat 26 (label / 4)) else none

/-- `imm16 = (label - (pc + 4)) >> 2` as a signed 16-bit value; refused where the label is not a multiple of 4 or is
out of range (R86). -/
def branchField (pc : Word) (label : Nat) : Option (BitVec 16) :=
  if label % 4 = 0 then signedField (((label : Int) - (pc.toNat + 4)) / 4) else none

/-- The instruction of an assembly line at address `pc`, in the canonical spelling, or none where the assembler
refuses its operands. -/
def assemble (pc : Word) : Asm → Option Instr
  | .sll rd rt shamt => some (.sll 0 rt rd shamt)
  | .srl rd rt shamt => some (.srl 0 rt rd shamt)
  | .jr rs => some (.jr rs 0 0 0)
  | .addu rd rs rt => some (.addu rs rt rd 0)
  | .subu rd rs rt => some (.subu rs rt rd 0)
  | .and rd rs rt => some (.and rs rt rd 0)
  | .or rd rs rt => some (.or rs rt rd 0)
  | .slt rd rs rt => some (.slt rs rt rd 0)
  | .j label => (jumpField label).map Instr.j
  | .jal label => (jumpField label).map Instr.jal
  | .beq rs rt label => (branchField pc label).map (Instr.beq rs rt)
  | .bne rs rt label => (branchField pc label).map (Instr.bne rs rt)
  | .addiu rt rs imm => (signedField imm).map (Instr.addiu rs rt)
  | .andi rt rs imm => (unsignedField imm).map (Instr.andi rs rt)
  | .ori rt rs imm => (unsignedField imm).map (Instr.ori rs rt)
  | .lui rt imm => (unsignedField imm).map (Instr.lui 0 rt)
  | .lw rt offset rs => (signedField offset).map (Instr.lw rs rt)
  | .sw rt offset rs => (signedField offset).map (Instr.sw rs rt)

/-! ### Pseudo-instructions (R99) -/

/-- `nop` = `sll $0, $0, 0`, the word 0 (R96). -/
def pseudoNop : Asm := .sll 0 0 0

/-- `b label` = `beq $0, $0, label`. -/
def pseudoB (label : Nat) : Asm := .beq 0 0 label

/-- `li rt, imm32` = `lui rt, imm32[31:16]` then `ori rt, rt, imm32[15:0]`. -/
def pseudoLi (rt : RegIdx) (imm32 : Word) : List Asm :=
  [.lui rt (imm32.extractLsb' 16 16).toNat, .ori rt rt (imm32.extractLsb' 0 16).toNat]

/-- `move rd, rs` = `addu rd, rs, $0`; right only while `x[0] = 0`. -/
def pseudoMove (rd rs : RegIdx) : Asm := .addu rd rs 0

/-- `halt` = `beq $0, $0, -1`, a branch to itself, the end-of-run marker of R145. -/
def haltMarker : Instr := .beq 0 0 (-1)

end Sys2Proof.Machine
end

