-- ==== Sys2Proof/Machine/Datapath.lean ====
section
/-! DEFINITION. The step composed from the six sub-blocks, as spec/40_datapath.md writes it: decoder (R113), register
file ports (R114, R115), ALU (R117), pc state machine (R118, R119), memory address translator (R53, R120), load-store
data mux and writeback select (R121 to R123), commit (R124) and the whole step (R125). The machine's `step` runs the
per-instruction meanings of R150 to R215 instead; that the two agree on every state is a claim about the model. -/

namespace Sys2Proof.Machine

/-! ### Word indexes of the two segments (R32, R53, R54) -/

/-- `translate_fetch` (R54): the instruction-segment word index of a pc, or none (FetchFault). -/
def translateFetch (c : Config) (pc : Word) : Option Nat :=
  if pc.toNat % 4 ≠ 0 then none
  else if pc.toNat < c.base ∨ c.dataBase ≤ pc.toNat then none
  else some ((pc.toNat - c.base) / 4)

/-- `translate_data` (R53): the data-segment word index of an effective address, or none (MemoryFault). -/
def translateData (c : Config) (ea : Word) : Option Nat :=
  if ea.toNat % 4 ≠ 0 then none
  else if ea.toNat < c.dataBase ∨ c.dataEnd ≤ ea.toNat then none
  else some ((ea.toNat - c.dataBase) / 4)

/-- `IMEM[k]`, at byte address BASE + 4k (R32). -/
def State.imem (s : State) (k : Nat) : Word := s.wordAt (s.cfg.base + 4 * k)

/-- `DMEM[k]`, at byte address DATA_BASE + 4k (R32). -/
def State.dmem (s : State) (k : Nat) : Word := s.wordAt (s.cfg.dataBase + 4 * k)

/-! ### Decoder (R112, R113) -/

/-- The assembled immediate of an I-format operation (R85). -/
def assembleImmediate (op : IOp) (pc : Word) (imm16 : BitVec 16) : Word :=
  match op with
  | .beq => branchTarget pc imm16
  | .bne => branchTarget pc imm16
  | .addiu => sext32 imm16
  | .lui => sext32 imm16
  | .lw => sext32 imm16
  | .sw => sext32 imm16
  | .andi => zext32 imm16
  | .ori => zext32 imm16

/-- `decode(word, pc)` (R113): the record, or UnsupportedOpcode. The decoder does not check the funct. -/
def decodeRecord (w pc : Word) : Except Fault Decoded :=
  if opcodeField w = rOpcode then
    .ok (.r (rsField w) (rtField w) (rdField w) (shamtField w) (functField w))
  else if (jOpOf (opcodeField w)).isSome then
    .ok (.j (opcodeField w) (jumpTarget (targetField w)))
  else
    match iOpOf (opcodeField w) with
    | some op => .ok (.i (opcodeField w) (rsField w) (rtField w) (assembleImmediate op pc (immField w)))
    | none => .error (.unsupportedOpcode pc w)

/-! ### Register snapshot (R114) -/

/-- The two source-register values read at decode time (R114). -/
structure Snapshot where
  a : Word
  b : Word
  deriving DecidableEq, Repr

/-- The snapshot of a record. A J-format record has no register fields and takes none: the two zeros stand for
values that nothing reads. -/
def readSnapshot (s : State) : Decoded → Snapshot
  | .r rs rt _ _ _ => ⟨s.readReg rs, s.readReg rt⟩
  | .i _ rs rt _ => ⟨s.readReg rs, s.readReg rt⟩
  | .j _ _ => ⟨0, 0⟩

/-! ### ALU (R116, R117) -/

/-- The ALU on an R-format record. -/
def aluR (op : ROp) (snap : Snapshot) (shamt : BitVec 5) : Word :=
  match op with
  | .sll => snap.b <<< shamt.toNat
  | .srl => snap.b >>> shamt.toNat
  | .jr => snap.a
  | .addu => snap.a + snap.b
  | .subu => snap.a - snap.b
  | .and => snap.a &&& snap.b
  | .or => snap.a ||| snap.b
  | .slt => if snap.a.toInt < snap.b.toInt then 1 else 0

/-- The ALU on a J-format record: 0 for `j`, the link value for `jal`. -/
def aluJ (op : JOp) (pc : Word) : Word :=
  match op with
  | .j => 0
  | .jal => pc + 4

/-- The ALU on an I-format record. -/
def aluI (op : IOp) (snap : Snapshot) (imm : Word) : Word :=
  match op with
  | .beq => snap.a - snap.b
  | .bne => snap.a - snap.b
  | .addiu => snap.a + imm
  | .andi => snap.a &&& imm
  | .ori => snap.a ||| imm
  | .lui => imm <<< 16
  | .lw => snap.a + imm
  | .sw => snap.a + imm

/-- `execute(d, snap, pc)` (R117): the ALU result, or UnsupportedFunct. The last two cases meet a record no decoder
makes (a J or I record whose opcode is unsupported) and raise what the decoder raises for that opcode. -/
def aluExecute (d : Decoded) (snap : Snapshot) (pc w : Word) : Except Fault Word :=
  match d with
  | .r _ _ _ shamt funct =>
    match rOpOf funct with
    | some op => .ok (aluR op snap shamt)
    | none => .error (.unsupportedFunct pc w)
  | .j opcode _ =>
    match jOpOf opcode with
    | some op => .ok (aluJ op pc)
    | none => .error (.unsupportedOpcode pc w)
  | .i opcode _ _ imm =>
    match iOpOf opcode with
    | some op => .ok (aluI op snap imm)
    | none => .error (.unsupportedOpcode pc w)

/-! ### Program-counter state machine (R118, R119) -/

/-- The next-state arcs of the pc register (R119). -/
inductive Arc where
  | seq | branch | jump | reg
  deriving DecidableEq, Repr

/-- The arc a step takes (R119). -/
def arcOf (d : Decoded) (r : Word) : Arc :=
  match d with
  | .r _ _ _ _ funct => if rOpOf funct = some .jr then .reg else .seq
  | .j _ _ => .jump
  | .i opcode _ _ _ =>
    match iOpOf opcode with
    | some .beq => if r = 0 then .branch else .seq
    | some .bne => if r = 0 then .seq else .branch
    | some .addiu => .seq
    | some .andi => .seq
    | some .ori => .seq
    | some .lui => .seq
    | some .lw => .seq
    | some .sw => .seq
    | none => .seq

/-- The decode-time target a record carries: the immediate slot of an I record, the target of a J record. -/
def decodeSlot : Decoded → Word
  | .r _ _ _ _ _ => 0
  | .i _ _ _ imm => imm
  | .j _ target => target

/-- The next state of an arc (R119). -/
def arcPc (arc : Arc) (d : Decoded) (r pc : Word) : Word :=
  match arc with
  | .seq => pc + 4
  | .branch => decodeSlot d
  | .jump => decodeSlot d
  | .reg => r

/-- `nextPC(d, r, pc)` (R118). -/
def nextPc (d : Decoded) (r pc : Word) : Word :=
  match d with
  | .r _ _ _ _ funct => if rOpOf funct = some .jr then r else pc + 4
  | .j _ target => target
  | .i opcode _ _ imm =>
    match iOpOf opcode with
    | some .beq => if r = 0 then imm else pc + 4
    | some .bne => if r ≠ 0 then imm else pc + 4
    | some .addiu => pc + 4
    | some .andi => pc + 4
    | some .ori => pc + 4
    | some .lui => pc + 4
    | some .lw => pc + 4
    | some .sw => pc + 4
    | none => pc + 4

/-! ### Memory unit and writeback (R120 to R123) -/

/-- What the memory unit passes on: the value for writeback and the store to commit. -/
structure MemResult where
  value : Word
  store : Option (Word × Word)
  deriving DecidableEq, Repr

/-- Whether a record is `lw`. -/
def isLoad : Decoded → Bool
  | .i opcode _ _ _ => iOpOf opcode == some .lw
  | .r _ _ _ _ _ => false
  | .j _ _ => false

/-- Whether a record is `sw`. -/
def isStore : Decoded → Bool
  | .i opcode _ _ _ => iOpOf opcode == some .sw
  | .r _ _ _ _ _ => false
  | .j _ _ => false

/-- `memAccess(d, r, snap)` (R121): the translator is used by `lw` and `sw` only (R120), and the store data is
`snap.b` (R123). -/
def memAccess (s : State) (d : Decoded) (r : Word) (snap : Snapshot) : Except Fault MemResult :=
  if isLoad d then
    match translateData s.cfg r with
    | some k => .ok ⟨s.dmem k, none⟩
    | none => .error (.memoryFault s.pc r)
  else if isStore d then
    match translateData s.cfg r with
    | some _ => .ok ⟨r, some (r, snap.b)⟩
    | none => .error (.memoryFault s.pc r)
  else .ok ⟨r, none⟩

/-- Writeback destination select (R122): `some wb_dest` where `wb_en = 1`. -/
def wbSelect : Decoded → Option RegIdx
  | .r _ _ rd _ funct => if rOpOf funct = some .jr then none else some rd
  | .j opcode _ => if jOpOf opcode = some .jal then some linkRegister else none
  | .i opcode _ rt _ =>
    match iOpOf opcode with
    | some .addiu => some rt
    | some .andi => some rt
    | some .ori => some rt
    | some .lui => some rt
    | some .lw => some rt
    | some .beq => none
    | some .bne => none
    | some .sw => none
    | none => none

/-! ### The whole step (R111, R125) -/

/-- The values that pass between the sub-blocks within one step (R111). -/
structure Signals where
  iindex : Nat
  word : Word
  d : Decoded
  snap : Snapshot
  r : Word
  npc : Word
  memory : MemResult
  wbDest : Option RegIdx
  deriving DecidableEq, Repr

/-- The signals of a step of a running machine, or the first fault in stage order (R125, R237). -/
def signals (s : State) : Except Fault Signals :=
  match translateFetch s.cfg s.pc with
  | none => .error (.fetchFault s.pc)
  | some k =>
    match decodeRecord (s.imem k) s.pc with
    | .error f => .error f
    | .ok d =>
      match aluExecute d (readSnapshot s d) s.pc (s.imem k) with
      | .error f => .error f
      | .ok r =>
        match memAccess s d r (readSnapshot s d) with
        | .error f => .error f
        | .ok m =>
          .ok { iindex := k, word := s.imem k, d := d, snap := readSnapshot s d, r := r, npc := nextPc d r s.pc,
                memory := m, wbDest := wbSelect d }

/-- The store of a step (R125): `DMEM[(a - DATA_BASE) >> 2] <- v`. -/
def commitDataWord (s : State) (store : Option (Word × Word)) : List Host.Cell :=
  match store with
  | some (a, v) => Memory.writeWord s.cfg.byteOrder s.mem (s.cfg.dataBase + 4 * ((a.toNat - s.cfg.dataBase) / 4)) v
  | none => s.mem

/-- The commit, reached only if no stage raised a fault (R124, R125), with the retire record of R127. -/
def commitSignals (s : State) (g : Signals) : State :=
  let wb := g.wbDest.map (fun dst => (dst, g.memory.value))
  { s with
    mem := commitDataWord s g.memory.store
    regs := commitRegs s.cfg s.regs wb
    pc := g.npc
    trace := .retired { pc := s.pc, word := g.word, decoded := g.d, reg := reportedReg s.cfg wb,
                        mem := g.memory.store, nextPc := g.npc } :: s.trace }

/-- The step of R125 on a running machine; a raise anywhere ends it as R231 says. -/
def datapathCycle (s : State) : State :=
  match signals s with
  | .ok g => commitSignals s g
  | .error f => takeFault f s

end Sys2Proof.Machine
end

