-- ==== Sys2Proof/Machine/HostControl.lean ====
section
/-! DEFINITION. What the host can do to the machine (spec/40_datapath.md R140 to R144): load a program once, before
the first step; then request steps and, between any two of them, a halt. The host never writes registers or memory
after the load (R144). -/

namespace Sys2Proof.Machine

/-- Reset and load (R260, R264, R265): word `k` of the program goes to BASE + 4k. A program longer than IMEM_WORDS
leaves the instruction segment 0 and the status Faulted(ProgramTooLarge, n); no step has been taken, so nothing goes to
the trace sink (log 19). -/
def load (c : Config) (ws : List Word) : State :=
  if ws.length ≤ c.imemWords then
    { State.resetWith c with mem := Memory.writeWords c.byteOrder [] c.base ws }
  else { State.resetWith c with status := .faulted (.programTooLarge ws.length) }

/-- The host fixes a configuration and loads a program (R268); a configuration that is not well formed is refused
(R9). -/
def boot (c : Config) (ws : List Word) : Host.Outcome State Fault Refusal :=
  if c.wf then .next (load c ws) else .refused .illFormedConfiguration

/-- A halt request (R142): Running becomes Halted and nothing else changes; in Halted and Faulted it does nothing. -/
def haltRequest (s : State) : State :=
  match s.status with
  | .running => { s with status := .halted }
  | .halted => s
  | .faulted _ => s

/-- The two requests of the step control (R142). -/
inductive HostRequest where
  | step
  | halt
  deriving DecidableEq, Repr

/-- One request served. -/
def serve (r : HostRequest) (s : State) : Host.Outcome State Fault Refusal :=
  match r with
  | .step => step s
  | .halt => .next (haltRequest s)

/-- The requests served in order. -/
def serveAll : List HostRequest → State → Host.Outcome State Fault Refusal
  | [], s => .next s
  | r :: rs, s =>
    match serve r s with
    | .next s' => serveAll rs s'
    | .fault f => .fault f
    | .refused q => .refused q

end Sys2Proof.Machine
end

