-- ==== Sys2Proof/Safety.lean ====
section
/-! DEFINITION. The terms in which claims are stated: what a step changed, what it left alone, the invariants of a
run, and the relation between two machines that differ in byte order only. -/

namespace Sys2Proof.Machine

/-! ### What a step changed -/

/-- `x[d] <- v` and no other register (R21, R115): every register of `t` reads as in `s`, but `d` reads `v`, unless
R0_HARDWIRED is set and `d = 0`, where the write is discarded. -/
def RegWritten (s t : State) (d : RegIdx) (v : Word) : Prop :=
  ∀ r : RegIdx, t.readReg r = if r = d ∧ ¬(s.cfg.r0Hardwired = true ∧ d = 0) then v else s.readReg r

/-- Every register reads as before. -/
def SameRegs (s t : State) : Prop := ∀ r : RegIdx, t.readReg r = s.readReg r

/-- Every byte of memory reads as before. -/
def SameBytes (s t : State) : Prop := ∀ a : Nat, Memory.readByte t.mem a = Memory.readByte s.mem a

/-- The word at byte address `a` is `v`, and every byte outside `a .. a+3` reads as before. -/
def WordStored (s t : State) (a : Nat) (v : Word) : Prop :=
  t.wordAt a = v ∧ ∀ b : Nat, b < a ∨ a + 4 ≤ b → Memory.readByte t.mem b = Memory.readByte s.mem b

/-- The step of `s` to `t` completed: the run status and the configuration are as before, and exactly one record, a
retire record, went to the trace sink (R110, R141). -/
def Retired (s t : State) : Prop :=
  t.status = s.status ∧ t.cfg = s.cfg ∧ ∃ r : Retire, t.trace = .retired r :: s.trace

/-- The step of `s` to `t` took the fault `f` (R231): no register, no memory byte and not the pc changed, the status is
Faulted with the record, and exactly the fault record went to the trace sink. -/
def FaultedFrom (s t : State) (f : Fault) : Prop :=
  t.regs = s.regs ∧ t.mem = s.mem ∧ t.pc = s.pc ∧ t.cfg = s.cfg ∧ t.status = .faulted f ∧
    t.trace = .faulted f :: s.trace

/-- A pc that the step of `s` to `t` set and that cannot be fetched from is a fault of the NEXT step (R213, R216): of a
running machine with a well-formed configuration, that step takes FetchFault with it. -/
def FaultsAtNextFetch (s t : State) : Prop :=
  s.cfg.wf = true → s.status = .running → fetchable s.cfg t.pc = false →
    ∃ u, step t = .next u ∧ FaultedFrom t u (.fetchFault t.pc)

/-! ### What an instruction may write (R22, R66) -/

/-- The register an instruction writes, if it writes one (the table of R22). -/
def writesRegister : Instr → Option RegIdx
  | .sll _ _ rd _ => some rd
  | .srl _ _ rd _ => some rd
  | .addu _ _ rd _ => some rd
  | .subu _ _ rd _ => some rd
  | .and _ _ rd _ => some rd
  | .or _ _ rd _ => some rd
  | .slt _ _ rd _ => some rd
  | .addiu _ rt _ => some rt
  | .andi _ rt _ => some rt
  | .ori _ rt _ => some rt
  | .lui _ rt _ => some rt
  | .lw _ rt _ => some rt
  | .jal _ => some linkRegister
  | .jr _ _ _ _ => none
  | .j _ => none
  | .beq _ _ _ => none
  | .bne _ _ _ => none
  | .sw _ _ _ => none

/-- The registers whose values an instruction uses (the column of reads of R22; a snapshot read that the table calls
unused is not one). -/
def readsRegisters : Instr → List RegIdx
  | .sll _ rt _ _ => [rt]
  | .srl _ rt _ _ => [rt]
  | .addu rs rt _ _ => [rs, rt]
  | .subu rs rt _ _ => [rs, rt]
  | .and rs rt _ _ => [rs, rt]
  | .or rs rt _ _ => [rs, rt]
  | .slt rs rt _ _ => [rs, rt]
  | .jr rs _ _ _ => [rs]
  | .addiu rs _ _ => [rs]
  | .andi rs _ _ => [rs]
  | .ori rs _ _ => [rs]
  | .lui _ _ _ => []
  | .lw rs _ _ => [rs]
  | .sw rs rt _ => [rs, rt]
  | .beq rs rt _ => [rs, rt]
  | .bne rs rt _ => [rs, rt]
  | .j _ => []
  | .jal _ => []

/-- Whether an instruction is a store: the only one that writes memory (R66). -/
def isStoreInstr : Instr → Bool
  | .sw _ _ _ => true
  | .sll _ _ _ _ => false
  | .srl _ _ _ _ => false
  | .jr _ _ _ _ => false
  | .addu _ _ _ _ => false
  | .subu _ _ _ _ => false
  | .and _ _ _ _ => false
  | .or _ _ _ _ => false
  | .slt _ _ _ _ => false
  | .j _ => false
  | .jal _ => false
  | .beq _ _ _ => false
  | .bne _ _ _ => false
  | .addiu _ _ _ => false
  | .andi _ _ _ => false
  | .ori _ _ _ => false
  | .lui _ _ _ => false
  | .lw _ _ _ => false

/-- Whether an instruction is `jr`: the only one that can set a misaligned pc (R56). -/
def isJumpRegister : Instr → Bool
  | .jr _ _ _ _ => true
  | .sll _ _ _ _ => false
  | .srl _ _ _ _ => false
  | .addu _ _ _ _ => false
  | .subu _ _ _ _ => false
  | .and _ _ _ _ => false
  | .or _ _ _ _ => false
  | .slt _ _ _ _ => false
  | .j _ => false
  | .jal _ => false
  | .beq _ _ _ => false
  | .bne _ _ _ => false
  | .addiu _ _ _ => false
  | .andi _ _ _ => false
  | .ori _ _ _ => false
  | .lui _ _ _ => false
  | .lw _ _ _ => false
  | .sw _ _ _ => false

/-- The arc of the pc state machine an instruction takes at a state, by its kind and, for a branch, by whether its two
registers are equal (the table of R119 and R218). -/
def instrArc (i : Instr) (s : State) : Arc :=
  match i with
  | .jr _ _ _ _ => .reg
  | .j _ => .jump
  | .jal _ => .jump
  | .beq rs rt _ => if s.readReg rs = s.readReg rt then .branch else .seq
  | .bne rs rt _ => if s.readReg rs = s.readReg rt then .seq else .branch
  | .sll _ _ _ _ => .seq
  | .srl _ _ _ _ => .seq
  | .addu _ _ _ _ => .seq
  | .subu _ _ _ _ => .seq
  | .and _ _ _ _ => .seq
  | .or _ _ _ _ => .seq
  | .slt _ _ _ _ => .seq
  | .addiu _ _ _ => .seq
  | .andi _ _ _ => .seq
  | .ori _ _ _ => .seq
  | .lui _ _ _ => .seq
  | .lw _ _ _ => .seq
  | .sw _ _ _ => .seq

/-! ### Invariants of a run -/

/-- The invariant of the machine state: the configuration is well formed (R9), memory is in canonical form and lists
only addresses of the image `[BASE, DATA_END)` (R50), and a hardwired register 0 holds 0 (R21, R157). -/
structure Inv (s : State) : Prop where
  configWf : s.cfg.wf = true
  memoryWf : Memory.wf s.mem
  inImage : ∀ c ∈ s.mem, s.cfg.base ≤ c.1 ∧ c.1 < s.cfg.dataEnd
  zeroHolds : s.cfg.r0Hardwired = true → s.regs[0] = 0

/-- A chain of retire records, newest first, that leads from BASE to `pc`: each record's next pc is the pc of the
record after it, and the oldest record is that of the instruction at BASE. No fault record stands in it. -/
def TraceChain (base : Nat) : Word → List TraceRecord → Prop
  | pc, [] => pc.toNat = base
  | pc, .retired r :: rest => r.nextPc = pc ∧ TraceChain base r.pc rest
  | _, .faulted _ :: _ => False

/-- A retire record tells the truth about the program: its pc can be fetched from, its word is the one that lies there
NOW, and its decoded record is that word's. -/
def RecordFaithful (s : State) (r : Retire) : Prop :=
  fetchable s.cfg r.pc = true ∧ s.wordAt r.pc.toNat = r.word ∧
    ∃ i, decodeWord r.word = .ok i ∧ r.decoded = decodedRecord r.pc i

/-- The trace against the run status (R127, R141, R231): while Running or Halted it is a chain of retire records from
BASE to the pc; after a fault of a step the fault record, which names the pc, stands on such a chain; after
ProgramTooLarge nothing was emitted. Every retire record is faithful. -/
structure TraceInv (s : State) : Prop where
  faithful : ∀ r, TraceRecord.retired r ∈ s.trace → RecordFaithful s r
  chain :
    match s.status with
    | .running => TraceChain s.cfg.base s.pc s.trace
    | .halted => TraceChain s.cfg.base s.pc s.trace
    | .faulted f =>
      (∃ n, f = .programTooLarge n ∧ s.trace = []) ∨
      (f.pc = some s.pc ∧ ∃ rest, s.trace = .faulted f :: rest ∧ TraceChain s.cfg.base s.pc rest)

/-! ### Byte order (R58) -/

/-- Two states that look the same to a program: the configurations agree but for BYTE_ORDER, the registers, pc, status
and trace are equal, and every word of the memory image is equal when each reads it in its own byte order. -/
structure SameWords (s t : State) : Prop where
  cfg : t.cfg = { s.cfg with byteOrder := t.cfg.byteOrder }
  regs : t.regs = s.regs
  pc : t.pc = s.pc
  status : t.status = s.status
  trace : t.trace = s.trace
  words : ∀ k, k < s.cfg.imemWords + s.cfg.dmemWords →
    t.wordAt (s.cfg.base + 4 * k) = s.wordAt (s.cfg.base + 4 * k)

/-- The outcomes of two such states: both next states and again alike, or the same fault, or the same refusal. -/
def SameOutcome (x y : Host.Outcome State Fault Refusal) : Prop :=
  match x, y with
  | .next s, .next t => SameWords s t
  | .fault f, .fault g => f = g
  | .refused q, .refused r => q = r
  | _, _ => False

/-! ### Runs under the host's control (R144, R145) -/

/-- The host does not halt the run (`NoHostHalt`, R144). -/
def NoHostHalt (rs : List HostRequest) : Prop := HostRequest.halt ∉ rs

/-- The end of a run by the spec's convention (R145): Running, with the pc at the halt marker. -/
def AtHaltMarker (s : State) (h : Word) : Prop :=
  s.status = .running ∧ s.pc = h ∧ fetch s = some (encode haltMarker)

end Sys2Proof.Machine
end

