-- ==== Sys2Proof/Certificates/Slice0/Obligations.lean ====
section
/-! DEFINITION. The statements for the provers. Each docstring names the rule of spec/ it formalises. Nothing is proved
here. A statement about every state holds in states no run reaches; where it could fail only there, the invariant that
rules them out (canonical memory, a well-formed configuration) is a premise, and `StepKeepsMachineInvariant` and
`LoadEstablishesInvariants` say that every run has it.

In `Retired` and `FaultedFrom` the record that R127 and R231 emit is read off State's list `trace`, and the
configuration off its field `cfg`; both fields are the model's own (DESIGN CHOICE, log 10 and log 1). Where a rule rests
on a decision D<n> of spec/92_eei_decisions.md, the docstring names it: the decision is the spec's own. -/

open Sys2Proof Sys2Proof.Machine

/-! ### Encoding -/

/-- Decoding the word of any instruction gives the instruction back, with every field at every value, the ignored ones
included (R82 to R84, R90 to R92; the numbers are D1 and D2, log 13; that Instr keeps ignored fields is log 11). -/
def Obligations.DecodeAfterEncode : Prop :=
  ∀ i : Instr, decodeWord (encode i) = .ok i

/-- A word that decodes to an instruction is that instruction's word: no bit of the word is dropped (R81 to R84, R112).
That no two words share an instruction is so only because Instr keeps the fields an instruction ignores (the model's
DESIGN CHOICE, log 11): R91 (D12) calls words that differ in those fields alone the same instruction. -/
def Obligations.EncodeAfterDecode : Prop :=
  ∀ (w : Word) (i : Instr), decodeWord w = .ok i → encode i = w

/-- R94, with the sets of R93 and R230 (the functs are D2, log 13): the words the decoder rejects for their opcode,
those it rejects for their funct, and that it accepts every other. That the decoder is what rejects an unsupported funct
is the model's (DEDUCED, log 12): in R113 it does not check the funct, and in R117 the ALU raises the fault. -/
def Obligations.EveryWordIsClassified : Prop :=
  ∀ w : Word,
    let opcode := (w.extractLsb 31 26).toNat
    let funct := (w.extractLsb 5 0).toNat
    (decodeWord w = .error .unsupportedOpcode ↔ opcode ∉ [0, 2, 3, 4, 5, 9, 12, 13, 15, 35, 43]) ∧
    (decodeWord w = .error .unsupportedFunct ↔
      opcode = 0 ∧ funct ∉ [0x00, 0x02, 0x08, 0x21, 0x23, 0x24, 0x25, 0x2A]) ∧
    ((∃ i, decodeWord w = .ok i) ↔
      (opcode = 0 ∧ funct ∈ [0x00, 0x02, 0x08, 0x21, 0x23, 0x24, 0x25, 0x2A]) ∨
      opcode ∈ [2, 3, 4, 5, 9, 12, 13, 15, 35, 43])

/-- Words written out in spec/95_test_vectors.md (W1, W2, V1, V5; numbers D1, D2, log 13), one of each family, decode
to the instructions the spec names, and two words that are none are rejected. The decoder of the spec makes an R record of
0x00400009 and its ALU raises UnsupportedFunct (R113, R117, W1): that the model's decoder rejects it is DEDUCED, log 12. -/
def Obligations.SpecWordsDecode : Prop :=
  decodeWord 0x01095021 = .ok (.addu 8 9 10 0) ∧ decodeWord 0x00084900 = .ok (.sll 0 8 9 4) ∧
  decodeWord 0x03E0F808 = .ok (.jr 31 0 31 0) ∧ decodeWord 0x2509FFFF = .ok (.addiu 8 9 0xFFFF) ∧
  decodeWord 0x3C098001 = .ok (.lui 0 9 0x8001) ∧ decodeWord 0x8D090004 = .ok (.lw 8 9 4) ∧
  decodeWord 0xAFA9FFFC = .ok (.sw 29 9 0xFFFC) ∧ decodeWord 0x1509FFFE = .ok (.bne 8 9 0xFFFE) ∧
  decodeWord 0x0C100004 = .ok (.jal 0x100004) ∧ decodeWord 0x00400009 = .error .unsupportedFunct ∧
  decodeWord 0xFC000000 = .error .unsupportedOpcode

/-- R91 (D12): the fields an instruction does not use make no difference. The instruction decoded from any word and
the one with 0 in its ignored fields give the same registers, pc, memory, status and configuration from every state.
-/
def Obligations.IgnoredFieldsChangeNothing : Prop :=
  ∀ (i : Instr) (s : State), ∃ t u, exec i s = .next t ∧ exec i.canonicalize s = .next u ∧
    u.regs = t.regs ∧ u.pc = t.pc ∧ u.mem = t.mem ∧ u.status = t.status ∧ u.cfg = t.cfg

/-- R81, R113, R87 (detected at decode: D25, C8): the opcode alone chooses the variant of the decoded record, whatever
the other 26 bits are: R for 0, J for 2 and 3 (with the target of the low 26 bits), I for the eight other supported
opcodes; the decoder raises UnsupportedOpcode for the rest. -/
def Obligations.OpcodeAloneChoosesTheFormat : Prop :=
  ∀ w pc : Word,
    let opcode := (w.extractLsb 31 26).toNat
    (opcode = 0 ↔ ∃ rs rt rd shamt funct, decodeRecord w pc = .ok (.r rs rt rd shamt funct)) ∧
    (opcode = 2 ∨ opcode = 3 ↔ ∃ op target, decodeRecord w pc = .ok (.j op target)) ∧
    (opcode ∈ [4, 5, 9, 12, 13, 15, 35, 43] ↔ ∃ op rs rt imm, decodeRecord w pc = .ok (.i op rs rt imm)) ∧
    (opcode ∉ [0, 2, 3, 4, 5, 9, 12, 13, 15, 35, 43] ↔ decodeRecord w pc = .error (.unsupportedOpcode pc w)) ∧
    (∀ op target, decodeRecord w pc = .ok (.j op target) →
      op.toNat = opcode ∧ target.toNat = (w.extractLsb 25 0).toNat * 4)

/-- R86 (from the branch's own address: D17, log 17): the targets a branch can reach from `pc` are exactly
`pc + 4 + d`, modulo 2^32, for the multiples `d` of 4 from -131072 to 131068. -/
def Obligations.BranchTargetsAreInRange : Prop :=
  ∀ pc target : Word,
    (∃ imm16, branchTarget pc imm16 = target) ↔
    ∃ d : Int, -131072 ≤ d ∧ d ≤ 131068 ∧ d % 4 = 0 ∧ target = pc + 4 + BitVec.ofInt 32 d

/-- R87: the target of a J-format instruction is `target26 * 4`, so the targets are exactly the multiples of 4 from 0
to 0x0FFFFFFC. -/
def Obligations.JumpTargetsAreInRange : Prop :=
  (∀ target26, (jumpTarget target26).toNat = target26.toNat * 4) ∧
  ∀ target : Word, (∃ target26, jumpTarget target26 = target) ↔ target.toNat % 4 = 0 ∧ target.toNat ≤ 0x0FFFFFFC

/-! ### Register-register ALU and shifts: result, frame, completion -/

/-- R150, R151 (functs: D2, log 13): the encoding of the two shifts and what they do from every state: `x[rd]` gets
`x[rt]` shifted by `shamt`, logically; no other register and no byte changes; the pc advances by 4. -/
def Obligations.ShiftsWriteRd : Prop :=
  ∀ (rs rt rd : RegIdx) (shamt : BitVec 5) (s : State),
    encode (.sll rs rt rd shamt) = (0#6 ++ rs ++ rt ++ rd ++ shamt ++ 0x00#6 : BitVec 32) ∧
    encode (.srl rs rt rd shamt) = (0#6 ++ rs ++ rt ++ rd ++ shamt ++ 0x02#6 : BitVec 32) ∧
    (∃ t, exec (.sll rs rt rd shamt) s = .next t ∧ RegWritten s t rd (s.readReg rt <<< shamt.toNat) ∧
      t.pc = s.pc + 4 ∧ SameBytes s t ∧ Retired s t) ∧
    (∃ t, exec (.srl rs rt rd shamt) s = .next t ∧ RegWritten s t rd (s.readReg rt >>> shamt.toNat) ∧
      t.pc = s.pc + 4 ∧ SameBytes s t ∧ Retired s t)

/-- R152, R153 (functs: D2, log 13; wrap: D8, log 14): encoding, sum and difference modulo 2^32, frame, from every
state. -/
def Obligations.AddAndSubtractWriteRd : Prop :=
  ∀ (rs rt rd : RegIdx) (shamt : BitVec 5) (s : State),
    encode (.addu rs rt rd shamt) = (0#6 ++ rs ++ rt ++ rd ++ shamt ++ 0x21#6 : BitVec 32) ∧
    encode (.subu rs rt rd shamt) = (0#6 ++ rs ++ rt ++ rd ++ shamt ++ 0x23#6 : BitVec 32) ∧
    (∃ t v, exec (.addu rs rt rd shamt) s = .next t ∧ RegWritten s t rd v ∧
      v.toNat = ((s.readReg rs).toNat + (s.readReg rt).toNat) % 2 ^ 32 ∧
      t.pc = s.pc + 4 ∧ SameBytes s t ∧ Retired s t) ∧
    (∃ t v, exec (.subu rs rt rd shamt) s = .next t ∧ RegWritten s t rd v ∧
      (v.toNat : Int) = ((s.readReg rs).toNat - (s.readReg rt).toNat : Int) % 2 ^ 32 ∧
      t.pc = s.pc + 4 ∧ SameBytes s t ∧ Retired s t)

/-- R154, R155 (functs: D2, log 13): encoding, bitwise and and or, bit by bit, frame, from every state. -/
def Obligations.AndAndOrWriteRd : Prop :=
  ∀ (rs rt rd : RegIdx) (shamt : BitVec 5) (s : State),
    encode (.and rs rt rd shamt) = (0#6 ++ rs ++ rt ++ rd ++ shamt ++ 0x24#6 : BitVec 32) ∧
    encode (.or rs rt rd shamt) = (0#6 ++ rs ++ rt ++ rd ++ shamt ++ 0x25#6 : BitVec 32) ∧
    (∃ t v, exec (.and rs rt rd shamt) s = .next t ∧ RegWritten s t rd v ∧
      (∀ k, v.getLsbD k = ((s.readReg rs).getLsbD k && (s.readReg rt).getLsbD k)) ∧
      t.pc = s.pc + 4 ∧ SameBytes s t ∧ Retired s t) ∧
    (∃ t v, exec (.or rs rt rd shamt) s = .next t ∧ RegWritten s t rd v ∧
      (∀ k, v.getLsbD k = ((s.readReg rs).getLsbD k || (s.readReg rt).getLsbD k)) ∧
      t.pc = s.pc + 4 ∧ SameBytes s t ∧ Retired s t)

/-- R156 (funct: D2, log 13): encoding, the SIGNED comparison (exactly 1 or 0), frame, from every state. -/
def Obligations.SetLessThanIsSigned : Prop :=
  ∀ (rs rt rd : RegIdx) (shamt : BitVec 5) (s : State),
    encode (.slt rs rt rd shamt) = (0#6 ++ rs ++ rt ++ rd ++ shamt ++ 0x2A#6 : BitVec 32) ∧
    ∃ t v, exec (.slt rs rt rd shamt) s = .next t ∧ RegWritten s t rd v ∧
      ((s.readReg rs).toInt < (s.readReg rt).toInt → v = 1) ∧
      ((s.readReg rt).toInt ≤ (s.readReg rs).toInt → v = 0) ∧
      t.pc = s.pc + 4 ∧ SameBytes s t ∧ Retired s t

/-! ### Immediate ALU: result, frame, completion -/

/-- R170 (opcode: D1, log 13; wrap: D8, log 14): encoding, the sum with the sign-extended immediate modulo 2^32,
frame, from every state. -/
def Obligations.AddImmediateWritesRt : Prop :=
  ∀ (rs rt : RegIdx) (imm16 : BitVec 16) (s : State),
    encode (.addiu rs rt imm16) = (9#6 ++ rs ++ rt ++ imm16 : BitVec 32) ∧
    ∃ t v, exec (.addiu rs rt imm16) s = .next t ∧ RegWritten s t rt v ∧
      (v.toNat : Int) = ((s.readReg rs).toNat + imm16.toInt : Int) % 2 ^ 32 ∧
      t.pc = s.pc + 4 ∧ SameBytes s t ∧ Retired s t

/-- R171, R172 (opcodes: D1, log 13): encoding, and with the zero-extended immediate (bits 31..16 of the result are
0), or with it (bits 31..16 pass), frame, from every state. -/
def Obligations.LogicImmediatesZeroExtend : Prop :=
  ∀ (rs rt : RegIdx) (imm16 : BitVec 16) (s : State),
    encode (.andi rs rt imm16) = (12#6 ++ rs ++ rt ++ imm16 : BitVec 32) ∧
    encode (.ori rs rt imm16) = (13#6 ++ rs ++ rt ++ imm16 : BitVec 32) ∧
    (∃ t v, exec (.andi rs rt imm16) s = .next t ∧ RegWritten s t rt v ∧
      (∀ k, v.getLsbD k = (decide (k < 16) && (s.readReg rs).getLsbD k && imm16.getLsbD k)) ∧
      t.pc = s.pc + 4 ∧ SameBytes s t ∧ Retired s t) ∧
    (∃ t v, exec (.ori rs rt imm16) s = .next t ∧ RegWritten s t rt v ∧
      (∀ k, v.getLsbD k = ((s.readReg rs).getLsbD k || decide (k < 16) && imm16.getLsbD k)) ∧
      t.pc = s.pc + 4 ∧ SameBytes s t ∧ Retired s t)

/-- R173, R88 (opcode: D1, log 13): encoding, the immediate in the upper half and zeros in the lower, whatever the
sign bit; frame, from every state. -/
def Obligations.LoadUpperImmediateWritesRt : Prop :=
  ∀ (rs rt : RegIdx) (imm16 : BitVec 16) (s : State),
    encode (.lui rs rt imm16) = (15#6 ++ rs ++ rt ++ imm16 : BitVec 32) ∧
    ∃ t, exec (.lui rs rt imm16) s = .next t ∧ RegWritten s t rt (imm16 ++ 0#16) ∧
      t.pc = s.pc + 4 ∧ SameBytes s t ∧ Retired s t

/-! ### Loads and stores -/

/-- R190, R191 (opcode: D1, log 13; wrap: D8, log 14; precise fault: D11, log 16): with `ea = x[rs] + sext_32(imm16)`
modulo 2^32, an aligned `ea` in the data segment completes: `x[rt]` gets the word there, every byte of memory reads as
before, pc + 4; any other `ea` takes MemoryFault(pc, ea) with nothing changed. -/
def Obligations.LoadWordReadsOrFaults : Prop :=
  ∀ (rs rt : RegIdx) (imm16 : BitVec 16) (s : State),
    encode (.lw rs rt imm16) = (35#6 ++ rs ++ rt ++ imm16 : BitVec 32) ∧
    (∀ ea : Word, (ea.toNat : Int) = ((s.readReg rs).toNat + imm16.toInt : Int) % 2 ^ 32 →
      (ea.toNat % 4 = 0 ∧ s.cfg.dataBase ≤ ea.toNat ∧ ea.toNat < s.cfg.dataEnd →
        ∃ t, exec (.lw rs rt imm16) s = .next t ∧ RegWritten s t rt (s.wordAt ea.toNat) ∧
          t.pc = s.pc + 4 ∧ SameBytes s t ∧ Retired s t) ∧
      (ea.toNat % 4 ≠ 0 ∨ ea.toNat < s.cfg.dataBase ∨ s.cfg.dataEnd ≤ ea.toNat →
        ∃ t, exec (.lw rs rt imm16) s = .next t ∧ FaultedFrom s t (.memoryFault s.pc ea)))

/-- R190, R192 (opcode: D1, log 13; wrap: D8, log 14; precise fault: D11, log 16): the address of the store is the
model's `effectiveAddress` at the state before it (which is `x[rs] + sext_32(imm16)` modulo 2^32). An aligned one in
the data segment completes: the word there becomes `x[rt]`, every byte outside it reads as before, no register
changes, pc + 4; any other takes MemoryFault(pc, ea). -/
def Obligations.StoreWordWritesOrFaults : Prop :=
  ∀ (rs rt : RegIdx) (imm16 : BitVec 16) (s : State), Memory.wf s.mem →
    encode (.sw rs rt imm16) = (43#6 ++ rs ++ rt ++ imm16 : BitVec 32) ∧
    (∀ ea : Word, effectiveAddress s rs imm16 = ea →
      (ea.toNat : Int) = ((s.readReg rs).toNat + imm16.toInt : Int) % 2 ^ 32 ∧
      (ea.toNat % 4 = 0 ∧ s.cfg.dataBase ≤ ea.toNat ∧ ea.toNat < s.cfg.dataEnd →
        ∃ t, exec (.sw rs rt imm16) s = .next t ∧ WordStored s t ea.toNat (s.readReg rt) ∧ SameRegs s t ∧
          t.pc = s.pc + 4 ∧ Retired s t) ∧
      (ea.toNat % 4 ≠ 0 ∨ ea.toNat < s.cfg.dataBase ∨ s.cfg.dataEnd ≤ ea.toNat →
        ∃ t, exec (.sw rs rt imm16) s = .next t ∧ FaultedFrom s t (.memoryFault s.pc ea)))

/-- R234: an instruction of a running machine raises MemoryFault exactly where it is a `lw` or `sw` whose effective
address is outside the data segment or not word-aligned, and the record names the pc and that address. -/
def Obligations.MemoryFaultExactlyOnBadLoadOrStore : Prop :=
  ∀ (i : Instr) (s : State) (pc ea : Word), s.status = .running →
    ((∃ t, exec i s = .next t ∧ t.status = .faulted (.memoryFault pc ea)) ↔
      pc = s.pc ∧ (ea.toNat % 4 ≠ 0 ∨ ea.toNat < s.cfg.dataBase ∨ s.cfg.dataEnd ≤ ea.toNat) ∧
      ∃ rs rt imm16, (i = .lw rs rt imm16 ∨ i = .sw rs rt imm16) ∧ ea = s.readReg rs + imm16.signExtend 32)

/-- R53, R54, R57 (the fetch check is D9, log 15): in a well-formed configuration the addresses that pass the data
check are exactly those of the data words, `DATA_BASE + 4k` with `k < DMEM_WORDS`, which the translator maps to `k`,
and the word's four bytes lie inside the segment; the same of the fetch check and `BASE + 4k` with `k < IMEM_WORDS`.
-/
def Obligations.AddressChecksNameWholeWords : Prop :=
  ∀ c : Config, c.wf = true →
    (∀ ea : Word, (accessible c ea = true ↔ ∃ k, k < c.dmemWords ∧ ea.toNat = c.dataBase + 4 * k)) ∧
    (∀ (ea : Word) (k : Nat), translateData c ea = some k ↔ k < c.dmemWords ∧ ea.toNat = c.dataBase + 4 * k) ∧
    (∀ pc : Word, (fetchable c pc = true ↔ ∃ k, k < c.imemWords ∧ pc.toNat = c.base + 4 * k)) ∧
    (∀ (pc : Word) (k : Nat), translateFetch c pc = some k ↔ k < c.imemWords ∧ pc.toNat = c.base + 4 * k) ∧
    (∀ ea : Word, accessible c ea = true → c.dataBase ≤ ea.toNat ∧ ea.toNat + 4 ≤ c.dataEnd) ∧
    (∀ pc : Word, fetchable c pc = true → c.base ≤ pc.toNat ∧ pc.toNat + 4 ≤ c.dataBase)

/-- R193, first reading: a completed `sw rt` followed by an `lw` from the same effective address returns the stored
value (an `lw` into a hardwired register 0 writes nothing, and 0 is read). -/
def Obligations.StoreThenLoadReturnsValue : Prop :=
  ∀ (rs rt b d : RegIdx) (imm16 off : BitVec 16) (s t : State), Memory.wf s.mem →
    exec (.sw rs rt imm16) s = .next t → accessible s.cfg (effectiveAddress s rs imm16) = true →
    effectiveAddress t b off = effectiveAddress s rs imm16 →
    ∃ u, exec (.lw b d off) t = .next u ∧
      u.readReg d = if s.cfg.r0Hardwired = true ∧ d = 0 then 0 else s.readReg rt

/-- R193, second reading: a completed `lw rt` followed by `sw rt` to the same effective address leaves memory as it
was; where `rt` is a hardwired register 0, the loaded word is lost and 0 is stored. -/
def Obligations.LoadThenStoreLeavesMemory : Prop :=
  ∀ (rs rt b : RegIdx) (imm16 off : BitVec 16) (s t : State), Memory.wf s.mem →
    exec (.lw rs rt imm16) s = .next t → accessible s.cfg (effectiveAddress s rs imm16) = true →
    effectiveAddress t b off = effectiveAddress s rs imm16 →
    ∃ u, exec (.sw b rt off) t = .next u ∧
      (¬(s.cfg.r0Hardwired = true ∧ rt = 0) → u.mem = s.mem) ∧
      (s.cfg.r0Hardwired = true ∧ rt = 0 → WordStored s u (effectiveAddress s rs imm16).toNat 0)

/-! ### Control transfer: target, frame, completion -/

/-- R211, R212, R218 (opcodes: D1, log 13; base pc: D17, log 17): encoding; `beq` goes to the target pre-computed from
its own pc exactly where the two registers are equal, `bne` exactly where they differ, else pc + 4; no register and no
byte changes; a target that cannot be fetched from is a fault of the next step (D9, log 15). From every state. -/
def Obligations.BranchesCompareRegisters : Prop :=
  ∀ (rs rt : RegIdx) (imm16 : BitVec 16) (s : State),
    encode (.beq rs rt imm16) = (4#6 ++ rs ++ rt ++ imm16 : BitVec 32) ∧
    encode (.bne rs rt imm16) = (5#6 ++ rs ++ rt ++ imm16 : BitVec 32) ∧
    ∀ target : Word, (target.toNat : Int) = (s.pc.toNat + 4 + imm16.toInt * 4 : Int) % 2 ^ 32 →
      (∃ t, exec (.beq rs rt imm16) s = .next t ∧
        t.pc = (if s.readReg rs = s.readReg rt then target else s.pc + 4) ∧
        SameRegs s t ∧ SameBytes s t ∧ Retired s t ∧ FaultsAtNextFetch s t) ∧
      (∃ t, exec (.bne rs rt imm16) s = .next t ∧
        t.pc = (if s.readReg rs = s.readReg rt then s.pc + 4 else target) ∧
        SameRegs s t ∧ SameBytes s t ∧ Retired s t ∧ FaultsAtNextFetch s t)

/-- R213, R214: encoding; `j` sets the pc to `target26 * 4` and nothing else, its ALU result is 0; `jal` also writes
`pc + 4` to register 31, never suppressed; a target outside the instruction segment is a fault of the next step. From
every state. -/
def Obligations.JumpsSetAbsoluteTarget : Prop :=
  ∀ (target26 : BitVec 26) (s : State),
    encode (.j target26) = (2#6 ++ target26 : BitVec 32) ∧ encode (.jal target26) = (3#6 ++ target26 : BitVec 32) ∧
    (∀ snap w, aluExecute (decodedJ .j target26) snap s.pc w = .ok 0) ∧
    (∃ t, exec (.j target26) s = .next t ∧ t.pc.toNat = target26.toNat * 4 ∧
      SameRegs s t ∧ SameBytes s t ∧ Retired s t ∧ FaultsAtNextFetch s t) ∧
    (∃ t, exec (.jal target26) s = .next t ∧ t.pc.toNat = target26.toNat * 4 ∧
      (∀ r, t.readReg r = if r = 31 then s.pc + 4 else s.readReg r) ∧ SameBytes s t ∧ Retired s t ∧
      FaultsAtNextFetch s t)

/-- R215 (funct: D2, log 13; unchecked: D22, log 18): encoding; `jr` sets the pc to `x[rs]`, neither checked nor
masked, and changes no register and no byte; a value that cannot be fetched from is a fault of the next step (D9, log
15). From every state. -/
def Obligations.JumpRegisterCopiesRs : Prop :=
  ∀ (rs rt rd : RegIdx) (shamt : BitVec 5) (s : State),
    encode (.jr rs rt rd shamt) = (0#6 ++ rs ++ rt ++ rd ++ shamt ++ 0x08#6 : BitVec 32) ∧
    ∃ t, exec (.jr rs rt rd shamt) s = .next t ∧ t.pc = s.readReg rs ∧ SameRegs s t ∧ SameBytes s t ∧ Retired s t ∧
      FaultsAtNextFetch s t

/-- R119: a completed instruction takes exactly the arc of its kind: SEQ to `pc + 4`, BRANCH to the decode-time target
(R86, from the branch's own address: D17, log 17), JUMP to the absolute target (R87), REG to `x[rs]`, unchecked (D22,
log 18); one that took a fault keeps the pc (D11, log 16). -/
def Obligations.PcTakesTheArcOfTheInstruction : Prop :=
  ∀ (i : Instr) (s t : State), exec i s = .next t →
    (∃ f, FaultedFrom s t f) ∨
    (Retired s t ∧
      match instrArc i s, i with
      | .seq, _ => t.pc = s.pc + 4
      | .branch, .beq _ _ imm16 => t.pc = s.pc + 4 + (imm16.signExtend 32 <<< 2)
      | .branch, .bne _ _ imm16 => t.pc = s.pc + 4 + (imm16.signExtend 32 <<< 2)
      | .jump, .j target26 => t.pc = target26.zeroExtend 32 <<< 2
      | .jump, .jal target26 => t.pc = target26.zeroExtend 32 <<< 2
      | .reg, .jr rs _ _ _ => t.pc = s.readReg rs
      | _, _ => False)

/-- R119 of the datapath: the next pc of the pc state machine is the next state of the arc it takes, for every decoded
record and ALU result. -/
def Obligations.NextPcIsTheArcOfTheRecord : Prop :=
  ∀ (d : Decoded) (r pc : Word), nextPc d r pc = arcPc (arcOf d r) d r pc

/-- R216, R235 (D9, D22, log 15 and log 18): after an instruction that completed with a pc which cannot be fetched from,
the next step takes FetchFault with that pc, leaving every register and byte as the instruction left them. That the
instruction completed is a premise here; that each control transfer does is in `BranchesCompareRegisters`,
`JumpsSetAbsoluteTarget` and `JumpRegisterCopiesRs`. -/
def Obligations.BadTargetFaultsAtTheNextStep : Prop :=
  ∀ (i : Instr) (s t : State), s.cfg.wf = true → s.status = .running → exec i s = .next t → Retired s t →
    (t.pc.toNat % 4 ≠ 0 ∨ t.pc.toNat < s.cfg.base ∨ s.cfg.dataBase ≤ t.pc.toNat) →
    ∃ u, step t = .next u ∧ FaultedFrom t u (.fetchFault t.pc)

/-- R216 (first sentence) and R56: whatever the instruction but `jr`, a pc that is a multiple of 4 stays one. -/
def Obligations.OnlyJumpRegisterMisalignsPc : Prop :=
  ∀ (i : Instr) (s t : State), exec i s = .next t → isJumpRegister i = false → s.pc.toNat % 4 = 0 → t.pc.toNat % 4 = 0

/-! ### Whole-machine frames -/

/-- R22, R66, R115: whatever the instruction and however it ends, no register but the one R22 lists for it reads
otherwise, memory is the same data unless it is a store, and the configuration is the same. -/
def Obligations.InstructionsWriteOnlyTheirDestination : Prop :=
  ∀ (i : Instr) (s t : State), exec i s = .next t →
    (∀ r, writesRegister i ≠ some r → t.readReg r = s.readReg r) ∧
    (isStoreInstr i = false → t.mem = s.mem) ∧ t.cfg = s.cfg

/-- R22, the column of reads: registers that the table does not list as read make no difference. From two states that
differ in registers only and agree on those the instruction reads, it ends the same way: the same pc, memory, status
and record, and where it completes the same value in the register it writes. -/
def Obligations.ResultDependsOnlyOnRegistersRead : Prop :=
  ∀ (i : Instr) (s : State) (regs : Vector Word 32),
    (∀ r ∈ readsRegisters i, State.readReg { s with regs := regs } r = s.readReg r) →
    ∃ t u, exec i s = .next t ∧ exec i { s with regs := regs } = .next u ∧
      u.pc = t.pc ∧ u.mem = t.mem ∧ u.status = t.status ∧ u.trace = t.trace ∧
      (Retired s t → ∀ d, writesRegister i = some d → u.readReg d = t.readReg d)

/-- R21 (D7, log 5): a write to a hardwired register 0 leaves the register file as it was and a read of it gives 0;
every other read and write is the plain one, register 0 included where it is not hardwired, which is the default. -/
def Obligations.RegisterZeroFollowsConfiguration : Prop :=
  Config.reference.r0Hardwired = false ∧
  ∀ (c : Config) (regs : Vector Word 32) (i : RegIdx) (v : Word),
    (c.r0Hardwired = true ∧ i = 0 → writeFile c regs i v = regs ∧ readFile c regs i = 0) ∧
    (¬(c.r0Hardwired = true ∧ i = 0) →
      readFile c regs i = regs[i.toNat]'(i.isLt) ∧
      ∀ r, readFile c (writeFile c regs i v) r = if r = i then v else readFile c regs r)

/-- R64: no step changes an instruction-segment word. -/
def Obligations.StepKeepsInstructionSegment : Prop :=
  ∀ s t : State, Memory.wf s.mem → step s = .next t → ∀ k, k < s.cfg.imemWords → t.imem k = s.imem k

/-- R127 (D14, D19; the trace list is the model's, log 10): a completed instruction appends one retire record that
tells what it changed: the old and the new pc, the instruction's word and decoded record, the written register with
its new value (none where nothing was written or the write was suppressed), the stored word (none unless it stores).
-/
def Obligations.RetireRecordTellsTheChanges : Prop :=
  ∀ (i : Instr) (s t : State), Memory.wf s.mem → exec i s = .next t → t.status = s.status → s.status = .running →
    ∃ r : Retire, t.trace = .retired r :: s.trace ∧ r.pc = s.pc ∧ r.word = encode i ∧
      r.decoded = decodedRecord s.pc i ∧ r.nextPc = t.pc ∧
      (match r.reg with
        | none => SameRegs s t ∧ (∀ d, writesRegister i = some d → s.cfg.r0Hardwired = true ∧ d = 0)
        | some (d, v) => writesRegister i = some d ∧ RegWritten s t d v ∧ t.readReg d = v) ∧
      (match r.mem with
        | none => t.mem = s.mem ∧ isStoreInstr i = false
        | some (a, v) => WordStored s t a.toNat v ∧ isStoreInstr i = true)

/-! ### The step -/

/-- R125 (the configuration check is R9's, log 21): where the configuration is well formed, the machine runs and the
word at the pc decodes to an instruction, the step is that instruction's meaning at the same state. -/
def Obligations.StepRunsTheDecodedInstruction : Prop :=
  ∀ (s : State) (i : Instr), s.cfg.wf = true → s.status = .running → fetchable s.cfg s.pc = true →
    decodeWord (s.wordAt s.pc.toNat) = .ok i → step s = exec i s

/-- R110 to R125 (D9, D11, D13; the ALU form of UnsupportedFunct: log 12): on every running machine with a well-formed
configuration the step is the step composed from the six sub-blocks: fetch check, decoder, register snapshot, ALU, pc
state machine, memory unit, writeback select, commit. -/
def Obligations.StepIsTheDatapathStep : Prop :=
  ∀ s : State, s.cfg.wf = true → s.status = .running → step s = .next (datapathCycle s)

/-- R124, R231 (D11, log 16; a fault is a next state: log 8): a step of a running machine is atomic: it completes, or
it takes one fault and commits nothing. -/
def Obligations.StepCompletesOrFaults : Prop :=
  ∀ s : State, s.cfg.wf = true → s.status = .running →
    ∃ t, step s = .next t ∧ ((t.status = .running ∧ Retired s t) ∨ ∃ f, FaultedFrom s t f)

/-- R235 with R54 (D9, log 15): a running machine whose pc is misaligned or outside the instruction segment takes
FetchFault(pc). -/
def Obligations.BadPcTakesFetchFault : Prop :=
  ∀ s : State, s.cfg.wf = true → s.status = .running →
    (s.pc.toNat % 4 ≠ 0 ∨ s.pc.toNat < s.cfg.base ∨ s.cfg.dataBase ≤ s.pc.toNat) →
    ∃ t, step s = .next t ∧ FaultedFrom s t (.fetchFault s.pc)

/-- R232, R233 (functs: D2, log 13; detected by the decoder: log 12; precise: D11, log 16): a fetched word with an
unsupported opcode takes UnsupportedOpcode(pc, word), an R-format word with an unsupported funct UnsupportedFunct(pc,
word), whatever its other bits hold. -/
def Obligations.UnsupportedWordsTakeTheirFault : Prop :=
  ∀ (s : State) (w : Word), s.cfg.wf = true → s.status = .running → fetch s = some w →
    ((w.extractLsb 31 26).toNat ∉ [0, 2, 3, 4, 5, 9, 12, 13, 15, 35, 43] →
      ∃ t, step s = .next t ∧ FaultedFrom s t (.unsupportedOpcode s.pc w)) ∧
    ((w.extractLsb 31 26).toNat = 0 ∧ (w.extractLsb 5 0).toNat ∉ [0x00, 0x02, 0x08, 0x21, 0x23, 0x24, 0x25, 0x2A] →
      ∃ t, step s = .next t ∧ FaultedFrom s t (.unsupportedFunct s.pc w))

/-- R230, R237 (codes: D27; functs: D2, log 13): a step takes a fault only for that fault's cause, with that fault's
record; ProgramTooLarge is raised by no step but by a load of more than IMEM_WORDS words; the codes are 1 to 5. -/
def Obligations.FaultsHaveTheirCause : Prop :=
  (∀ (s t : State) (f : Fault), s.status = .running → step s = .next t → t.status = .faulted f →
    match f with
    | .unsupportedOpcode pc w => pc = s.pc ∧ fetch s = some w ∧
        (w.extractLsb 31 26).toNat ∉ [0, 2, 3, 4, 5, 9, 12, 13, 15, 35, 43] ∧ f.code = 1
    | .unsupportedFunct pc w => pc = s.pc ∧ fetch s = some w ∧ (w.extractLsb 31 26).toNat = 0 ∧
        (w.extractLsb 5 0).toNat ∉ [0x00, 0x02, 0x08, 0x21, 0x23, 0x24, 0x25, 0x2A] ∧ f.code = 2
    | .memoryFault pc ea => pc = s.pc ∧ f.code = 3 ∧
        (ea.toNat % 4 ≠ 0 ∨ ea.toNat < s.cfg.dataBase ∨ s.cfg.dataEnd ≤ ea.toNat) ∧
        ∃ w rs rt imm16, fetch s = some w ∧ ea = effectiveAddress s rs imm16 ∧
          (decodeWord w = .ok (.lw rs rt imm16) ∨ decodeWord w = .ok (.sw rs rt imm16))
    | .fetchFault pc => pc = s.pc ∧ f.code = 4 ∧
        (pc.toNat % 4 ≠ 0 ∨ pc.toNat < s.cfg.base ∨ s.cfg.dataBase ≤ pc.toNat)
    | .programTooLarge _ => False) ∧
  (∀ (c : Config) (ws : List Word) (f : Fault),
    (load c ws).status = .faulted f ↔ c.imemWords < ws.length ∧ f = .programTooLarge ws.length) ∧
  (∀ n, (Fault.programTooLarge n).code = 5)

/-- R9 (the form of the refusal is the model's, log 21): the conditions on a configuration, and that a step and a load
with any other one are refused. -/
def Obligations.IllFormedConfigurationIsRefused : Prop :=
  (∀ c : Config, c.wf = true ↔
    c.base % 4 = 0 ∧ 1 ≤ c.imemWords ∧ 1 ≤ c.dmemWords ∧ c.base + 4 * c.imemWords + 4 * c.dmemWords ≤ 2 ^ 32 ∧
    c.spIndex ≤ 31 ∧ ¬(c.r0Hardwired = true ∧ c.spIndex = 0)) ∧
  (∀ s : State, s.cfg.wf = false → step s = .refused .illFormedConfiguration) ∧
  (∀ (c : Config) (ws : List Word), c.wf = false → boot c ws = .refused .illFormedConfiguration)

/-! ### Reset, load and the host -/

/-- R261, R262, R263 at the reference configuration (D3 to D6, log 2 and log 4): the state after reset. -/
def Obligations.ReferenceResetValues : Prop :=
  State.reset.readReg 29 = 0x00402000 ∧ (∀ r : RegIdx, r ≠ 29 → State.reset.readReg r = 0) ∧
  State.reset.pc = 0x00400000 ∧ (∀ a, Memory.readByte State.reset.mem a = 0) ∧ State.reset.status = .running

/-- R263: after the reset and load of any program, every data word is 0 and every instruction-segment word that the
loader did not write is 0. -/
def Obligations.ResetZeroesMemory : Prop :=
  ∀ (c : Config) (ws : List Word), c.wf = true →
    (∀ k, k < c.dmemWords → (load c ws).dmem k = 0) ∧
    (∀ k, k < c.imemWords → ws.length ≤ k → (load c ws).imem k = 0)

/-- R35 (D4 to D6, D18, log 19): the state after reset and load of any program with any well-formed configuration: the
table of R35, word by word. -/
def Obligations.ResetAndLoadValues : Prop :=
  ∀ (c : Config) (ws : List Word), c.wf = true →
    (∀ r : RegIdx, (load c ws).readReg r = if r.toNat = c.spIndex then c.spReset else 0) ∧
    (load c ws).pc.toNat = c.base ∧
    (∀ k, k < c.dmemWords → (load c ws).dmem k = 0) ∧
    (ws.length ≤ c.imemWords → (load c ws).status = .running ∧
      ∀ k, k < c.imemWords → (load c ws).imem k = ws.getD k 0) ∧
    (c.imemWords < ws.length → (load c ws).status = .faulted (.programTooLarge ws.length))

/-- R236, R265 (a request in such a state answers the same state: log 9): a program of more than IMEM_WORDS words is a
fault at load time, and no step request changes anything after it. -/
def Obligations.TooLargeProgramNeverSteps : Prop :=
  ∀ (c : Config) (ws : List Word) (rs : List HostRequest), c.wf = true → c.imemWords < ws.length →
    (load c ws).status = .faulted (.programTooLarge ws.length) ∧ serveAll rs (load c ws) = .next (load c ws)

/-- R247 (a request in such a state answers the same state: log 9): when the status is Halted or Faulted, no request
of the host, and so no step, changes the state again. -/
def Obligations.TerminalStatesNeverChange : Prop :=
  ∀ (s : State) (rs : List HostRequest), s.cfg.wf = true → s.status ≠ .running → serveAll rs s = .next s

/-- R142 (D15; the host's halt is a move outside `step`: log 20): a halt request of a running machine sets the status
to Halted and changes nothing else; in Halted and Faulted it does nothing. -/
def Obligations.HaltRequestOnlyStops : Prop :=
  ∀ s : State,
    (s.status = .running → haltRequest s = { s with status := .halted }) ∧
    (s.status ≠ .running → haltRequest s = s)

/-- R144 (`NoHostHalt`, D15): a run that the host does not halt never ends Halted. -/
def Obligations.OnlyTheHostHalts : Prop :=
  ∀ (rs : List HostRequest) (s t : State), NoHostHalt rs → s.status ≠ .halted → serveAll rs s = .next t →
    t.status ≠ .halted

/-! ### Invariants -/

/-- The state after reset meets both invariants (R35, R9): in particular the trace is empty, since nothing is emitted
before a step (R141; that State holds the trace is the model's, log 10). -/
def Obligations.ResetMeetsInvariants : Prop := Inv State.reset ∧ TraceInv State.reset

/-- R35, R264, R265: the state after the load of any program with a well-formed configuration meets both invariants. So
the loader has emitted no record, also for a program that is too large: R141 speaks of steps only, and the rest is the
model's (DEDUCED, log 19; the trace list is DESIGN CHOICE, log 10). -/
def Obligations.LoadEstablishesInvariants : Prop :=
  ∀ (c : Config) (ws : List Word), c.wf = true → Inv (load c ws) ∧ TraceInv (load c ws)

/-- Every step from a state that meets the invariant of the machine gives a state that meets it. -/
def Obligations.StepKeepsMachineInvariant : Prop :=
  ∀ s t : State, Inv s → step s = .next t → Inv t

/-- R127, R141, R64 (the trace list is the model's, log 10): every request of the host keeps the trace a true account
of the run: a chain of retire records from BASE to the pc, each naming the word that still lies at its pc, closed by
the fault record once a fault is taken. -/
def Obligations.HostRequestsKeepTraceInvariant : Prop :=
  ∀ (s t : State) (q : HostRequest), Inv s → TraceInv s → serve q s = .next t → TraceInv t

/-- R58 (D10; memory as bytes is the model's, log 6): byte order is not observable. Two machines that differ in
BYTE_ORDER and hold the same words take the same step: the same outcome, the same registers, pc, status and trace, and
again the same words. -/
def Obligations.ByteOrderIsNotObservable : Prop :=
  ∀ s t : State, Memory.wf s.mem → Memory.wf t.mem → SameWords s t → SameOutcome (step s) (step t)

/-! ### The spec's notation -/

/-- R96: the word 0 is `sll $0, $0, 0`; from every state it changes nothing but the pc and the trace, whatever
R0_HARDWIRED is. -/
def Obligations.ZeroWordIsNop : Prop :=
  decodeWord 0 = .ok (.sll 0 0 0 0) ∧ assemble 0 pseudoNop = some (.sll 0 0 0 0) ∧
  ∀ s : State, ∃ t, exec (.sll 0 0 0 0) s = .next t ∧ t.regs = s.regs ∧ t.mem = s.mem ∧ t.pc = s.pc + 4 ∧ Retired s t

/-- R99, R172 (D20): `li rt, imm32` assembles to two instructions that put any 32-bit constant into `rt` and change no
other register. -/
def Obligations.LoadConstantPseudoIsExact : Prop :=
  ∀ (rt : RegIdx) (imm32 pc : Word) (s : State), ∃ i j t u,
    (pseudoLi rt imm32).map (assemble pc) = [some i, some j] ∧ exec i s = .next t ∧ exec j t = .next u ∧
    RegWritten s u rt imm32 ∧ u.pc = s.pc + 8

/-- R98, R86 (D20, log 24): from an aligned pc the assembler takes a branch to exactly the labels that are multiples
of 4 in range, and the branch it makes reaches the label. -/
def Obligations.AssembledBranchReachesLabel : Prop :=
  ∀ (pc : Word) (label : Nat), pc.toNat % 4 = 0 → label < 2 ^ 32 →
    (label % 4 = 0 ∧ -131072 ≤ (label : Int) - (pc.toNat + 4) ∧ (label : Int) - (pc.toNat + 4) ≤ 131068 →
      ∃ imm16, branchField pc label = some imm16 ∧ (branchTarget pc imm16).toNat = label) ∧
    (label % 4 ≠ 0 ∨ (label : Int) - (pc.toNat + 4) < -131072 ∨ 131068 < (label : Int) - (pc.toNat + 4) →
      branchField pc label = none)

/-- R145, R99 (D21): the halt marker is the word 0x1000FFFF, and executing it loops: from every state nothing changes
but the trace, and a machine that has reached its marker is there again after every step. -/
def Obligations.HaltMarkerLoops : Prop :=
  encode haltMarker = 0x1000FFFF ∧
  (∀ s : State, ∃ t, exec haltMarker s = .next t ∧ t.regs = s.regs ∧ t.mem = s.mem ∧ t.pc = s.pc ∧ Retired s t) ∧
  (∀ (s : State) (h : Word), s.cfg.wf = true → AtHaltMarker s h →
    ∃ t, step s = .next t ∧ AtHaltMarker t h ∧ t.regs = s.regs ∧ t.mem = s.mem)
end

