-- ==== Sys2Proof/Laws/Memory.lean ====
section
/-! SUPPORT. The laws of memory: a write keeps the canonical form; a read after a write gives the value written at that
address and what was there before at every other; the same for words in either byte order. -/

namespace Sys2Proof.Machine

variable {m : List Host.Cell} {a b k : Nat} {v w : Byte} {order : ByteOrder}

/-! ### Bytes -/

theorem Memory.wf_nil : Memory.wf [] := by simp [Memory.wf]

theorem Memory.wf_cons {c : Host.Cell} :
    Memory.wf (c :: m) ↔ (∀ d ∈ m, c.1 < d.1) ∧ c.2 ≠ unlistedByte ∧ Memory.wf m := by
  simp only [Memory.wf, List.pairwise_cons, List.forall_mem_cons]
  tauto

theorem Memory.readByte_of_lt_all (h : ∀ c ∈ m, a < c.1) : Memory.readByte m a = unlistedByte := by
  induction m with
  | nil => rfl
  | cons c m ih =>
    have hc := h c (by simp)
    rw [Memory.readByte, if_neg (by omega)]
    exact ih fun d hd => h d (by simp [hd])

theorem Memory.consByte_mem {c : Host.Cell} (h : c ∈ Memory.consByte a v m) : c = (a, v) ∨ c ∈ m := by
  unfold Memory.consByte at h
  split at h
  · exact .inr h
  · simpa using h

theorem Memory.wf_consByte (hm : Memory.wf m) (h : ∀ c ∈ m, a < c.1) : Memory.wf (Memory.consByte a v m) := by
  unfold Memory.consByte
  split
  · exact hm
  · exact Memory.wf_cons.2 ⟨h, ‹_›, hm⟩

theorem Memory.readByte_consByte (h : ∀ c ∈ m, a < c.1) :
    Memory.readByte (Memory.consByte a v m) b = if b = a then v else Memory.readByte m b := by
  unfold Memory.consByte
  by_cases hv : v = unlistedByte
  · rw [if_pos hv]
    by_cases hb : b = a
    · rw [if_pos hb, hb, hv, Memory.readByte_of_lt_all h]
    · rw [if_neg hb]
  · rw [if_neg hv, Memory.readByte]
    simp only [eq_comm]

/-- Every cell of a written memory is the written one or was there before. -/
theorem Memory.writeByte_mem {c : Host.Cell} (h : c ∈ Memory.writeByte m a v) : c = (a, v) ∨ c ∈ m := by
  induction m with
  | nil => exact Memory.consByte_mem h
  | cons d m ih =>
    rw [Memory.writeByte] at h
    split at h
    · exact Memory.consByte_mem h
    · split at h
      · exact (Memory.consByte_mem h).imp_right (List.mem_cons_of_mem _)
      · rcases List.mem_cons.1 h with h | h
        · exact .inr (by simp [h])
        · exact (ih h).imp_right (List.mem_cons_of_mem _)

/-- A byte write keeps the canonical form. -/
theorem Memory.wf_writeByte (hm : Memory.wf m) : Memory.wf (Memory.writeByte m a v) := by
  induction m with
  | nil => exact Memory.wf_consByte hm (by simp)
  | cons d m ih =>
    obtain ⟨hlt, hne, hm'⟩ := Memory.wf_cons.1 hm
    rw [Memory.writeByte]
    split
    · rename_i h
      refine Memory.wf_consByte hm fun c hc => ?_
      rcases List.mem_cons.1 hc with rfl | hc
      · exact h
      · exact lt_trans h (hlt c hc)
    · split
      · rename_i h
        exact Memory.wf_consByte hm' fun c hc => h ▸ hlt c hc
      · refine Memory.wf_cons.2 ⟨fun c hc => ?_, hne, ih hm'⟩
        rcases Memory.writeByte_mem hc with rfl | hc
        · simp only; omega
        · exact hlt c hc

/-- What a byte reads as after a byte write. -/
theorem Memory.readByte_writeByte (hm : Memory.wf m) :
    Memory.readByte (Memory.writeByte m a v) b = if b = a then v else Memory.readByte m b := by
  induction m with
  | nil => exact Memory.readByte_consByte (by simp)
  | cons d m ih =>
    obtain ⟨hlt, -, hm'⟩ := Memory.wf_cons.1 hm
    rw [Memory.writeByte]
    split
    · rename_i h
      refine Memory.readByte_consByte fun c hc => ?_
      rcases List.mem_cons.1 hc with rfl | hc
      · exact h
      · exact lt_trans h (hlt c hc)
    · split
      · rename_i h
        rw [Memory.readByte_consByte fun c hc => h ▸ hlt c hc]
        by_cases hb : b = a
        · simp [hb]
        · rw [if_neg hb, if_neg hb, Memory.readByte, if_neg (by omega)]
      · rename_i h
        rw [Memory.readByte, ih hm']
        by_cases hb : b = a
        · rw [if_pos hb, if_pos hb, if_neg (by omega)]
        · rw [if_neg hb, if_neg hb, Memory.readByte]

/-- In canonical form the bytes determine the list: equal memories are equal data. -/
theorem Memory.eq_of_readByte_eq {m' : List Host.Cell} (hm : Memory.wf m) (hm' : Memory.wf m')
    (h : ∀ a, Memory.readByte m a = Memory.readByte m' a) : m = m' := by
  induction m generalizing m' with
  | nil =>
    cases m' with
    | nil => rfl
    | cons d m' =>
      exact absurd (h d.1).symm (by simpa [Memory.readByte] using (Memory.wf_cons.1 hm').2.1)
  | cons c m ih =>
    obtain ⟨hc, hcv, hmw⟩ := Memory.wf_cons.1 hm
    cases m' with
    | nil => exact absurd (h c.1) (by simpa [Memory.readByte] using hcv)
    | cons d m' =>
      obtain ⟨hd, hdv, hmw'⟩ := Memory.wf_cons.1 hm'
      have hcd : c.1 = d.1 := by
        rcases lt_trichotomy c.1 d.1 with hlt | heq | hgt
        · refine absurd (h c.1) ?_
          rw [Memory.readByte, if_pos rfl, Memory.readByte_of_lt_all (m := d :: m')]
          · exact hcv
          · intro e he
            rcases List.mem_cons.1 he with rfl | he
            · exact hlt
            · exact lt_trans hlt (hd e he)
        · exact heq
        · refine absurd (h d.1).symm ?_
          rw [Memory.readByte, if_pos rfl, Memory.readByte_of_lt_all (m := c :: m)]
          · exact hdv
          · intro e he
            rcases List.mem_cons.1 he with rfl | he
            · exact hgt
            · exact lt_trans hgt (hc e he)
      have hv : c.2 = d.2 := by simpa [Memory.readByte, hcd] using h c.1
      have htail : m = m' := by
        refine ih hmw hmw' fun a => ?_
        have ha := h a
        simp only [Memory.readByte] at ha
        by_cases hac : c.1 = a
        · rw [Memory.readByte_of_lt_all fun e he => hac ▸ hc e he,
            Memory.readByte_of_lt_all fun e he => hac ▸ hcd ▸ hd e he]
        · rwa [if_neg hac, if_neg (hcd ▸ hac)] at ha
      rw [htail, Prod.ext hcd hv]

/-! ### Words -/

/-- The bytes of a word, put together again, are the word. -/
theorem wordOfBytes_byteOfWord (order : ByteOrder) (x : Word) :
    wordOfBytes order (byteOfWord order x 0) (byteOfWord order x 1) (byteOfWord order x 2)
      (byteOfWord order x 3) = x := by
  cases order <;>
  · apply BitVec.eq_of_getLsbD_eq
    intro i hi
    simp only [wordOfBytes, byteOfWord, BitVec.getLsbD_append, BitVec.getLsbD_extractLsb']
    interval_cases i <;> simp

/-- The word put together from bytes has those bytes. -/
theorem byteOfWord_wordOfBytes (order : ByteOrder) (b0 b1 b2 b3 : Byte) :
    byteOfWord order (wordOfBytes order b0 b1 b2 b3) 0 = b0 ∧ byteOfWord order (wordOfBytes order b0 b1 b2 b3) 1 = b1 ∧
    byteOfWord order (wordOfBytes order b0 b1 b2 b3) 2 = b2 ∧
    byteOfWord order (wordOfBytes order b0 b1 b2 b3) 3 = b3 := by
  cases order <;>
  · refine ⟨?_, ?_, ?_, ?_⟩ <;>
    · apply BitVec.eq_of_getLsbD_eq
      intro i hi
      simp only [wordOfBytes, byteOfWord, BitVec.getLsbD_append, BitVec.getLsbD_extractLsb']
      interval_cases i <;> simp

/-- A word write keeps the canonical form. -/
theorem Memory.wf_writeWord (hm : Memory.wf m) {x : Word} : Memory.wf (Memory.writeWord order m a x) :=
  Memory.wf_writeByte (Memory.wf_writeByte (Memory.wf_writeByte (Memory.wf_writeByte hm)))

/-- What a byte reads as after a word write. -/
theorem Memory.readByte_writeWord (hm : Memory.wf m) {x : Word} :
    Memory.readByte (Memory.writeWord order m a x) b =
      if a ≤ b ∧ b < a + 4 then byteOfWord order x (b - a) else Memory.readByte m b := by
  have h1 := Memory.wf_writeByte (a := a) (v := byteOfWord order x 0) hm
  have h2 := Memory.wf_writeByte (a := a + 1) (v := byteOfWord order x 1) h1
  have h3 := Memory.wf_writeByte (a := a + 2) (v := byteOfWord order x 2) h2
  rw [Memory.writeWord, Memory.readByte_writeByte h3, Memory.readByte_writeByte h2, Memory.readByte_writeByte h1,
    Memory.readByte_writeByte hm]
  by_cases hb : a ≤ b ∧ b < a + 4
  · rw [if_pos hb]
    obtain hb | hb | hb | hb : b = a ∨ b = a + 1 ∨ b = a + 2 ∨ b = a + 3 := by omega
    all_goals subst hb; simp
  · rw [if_neg hb, if_neg (by omega), if_neg (by omega), if_neg (by omega), if_neg (by omega)]

/-- The word just written reads back. -/
theorem Memory.readWord_writeWord_same (hm : Memory.wf m) {x : Word} :
    Memory.readWord order (Memory.writeWord order m a x) a = x := by
  simp only [Memory.readWord, Memory.readByte_writeWord hm]
  simpa using wordOfBytes_byteOfWord order x

/-- A word that does not overlap the written one reads as before. -/
theorem Memory.readWord_writeWord_other (hm : Memory.wf m) {x : Word} (h : b + 4 ≤ a ∨ a + 4 ≤ b) :
    Memory.readWord order (Memory.writeWord order m a x) b = Memory.readWord order m b := by
  simp only [Memory.readWord, Memory.readByte_writeWord hm]
  rw [if_neg (by omega), if_neg (by omega), if_neg (by omega), if_neg (by omega)]

/-- Every cell of a word-written memory lies in the written word or was there before. -/
theorem Memory.writeWord_mem {c : Host.Cell} {x : Word} (h : c ∈ Memory.writeWord order m a x) :
    (a ≤ c.1 ∧ c.1 < a + 4) ∨ c ∈ m := by
  unfold Memory.writeWord at h
  rcases Memory.writeByte_mem h with rfl | h
  · exact .inl (by simp)
  rcases Memory.writeByte_mem h with rfl | h
  · exact .inl (by simp)
  rcases Memory.writeByte_mem h with rfl | h
  · exact .inl (by simp)
  rcases Memory.writeByte_mem h with rfl | h
  · exact .inl (by simp)
  exact .inr h

/-- Placing words keeps the canonical form. -/
theorem Memory.wf_writeWords (hm : Memory.wf m) (ws : List Word) : Memory.wf (Memory.writeWords order m a ws) := by
  induction ws generalizing m a with
  | nil => exact hm
  | cons w ws ih => exact ih (Memory.wf_writeWord hm)

end Sys2Proof.Machine
end

