-- ==== Sys2Proof/Laws/State.lean ====
section
/-! SUPPORT. One lemma for each field of each update of the state, true by `rfl`. -/

namespace Sys2Proof.Machine

variable (s : State) (f : Fault) (i : Instr) (e : Effect) (c : Config) (n w : Nat)

@[simp] theorem takeFault_cfg : (takeFault f s).cfg = s.cfg := rfl
@[simp] theorem takeFault_regs : (takeFault f s).regs = s.regs := rfl
@[simp] theorem takeFault_pc : (takeFault f s).pc = s.pc := rfl
@[simp] theorem takeFault_mem : (takeFault f s).mem = s.mem := rfl
@[simp] theorem takeFault_status : (takeFault f s).status = .faulted f := rfl
@[simp] theorem takeFault_trace : (takeFault f s).trace = .faulted f :: s.trace := rfl

@[simp] theorem commit_cfg : (commit i e s).cfg = s.cfg := rfl
@[simp] theorem commit_regs : (commit i e s).regs = commitRegs s.cfg s.regs e.reg := rfl
@[simp] theorem commit_pc : (commit i e s).pc = e.nextPc := rfl
@[simp] theorem commit_mem : (commit i e s).mem = commitStore s.cfg s.mem e.store := rfl
@[simp] theorem commit_status : (commit i e s).status = s.status := rfl
@[simp] theorem commit_trace : (commit i e s).trace = .retired (retireRecord i e s) :: s.trace := rfl

@[simp] theorem retireRecord_pc : (retireRecord i e s).pc = s.pc := rfl
@[simp] theorem retireRecord_word : (retireRecord i e s).word = encode i := rfl
@[simp] theorem retireRecord_decoded : (retireRecord i e s).decoded = decodedRecord s.pc i := rfl
@[simp] theorem retireRecord_reg : (retireRecord i e s).reg = reportedReg s.cfg e.reg := rfl
@[simp] theorem retireRecord_mem : (retireRecord i e s).mem = e.store := rfl
@[simp] theorem retireRecord_nextPc : (retireRecord i e s).nextPc = e.nextPc := rfl

@[simp] theorem withFetchWord_cfg : (s.withFetchWord n w).cfg = s.cfg := rfl
@[simp] theorem withFetchWord_regs : (s.withFetchWord n w).regs = s.regs := rfl
@[simp] theorem withFetchWord_pc : (s.withFetchWord n w).pc = s.pc := rfl
@[simp] theorem withFetchWord_status : (s.withFetchWord n w).status = s.status := rfl
@[simp] theorem withFetchWord_trace : (s.withFetchWord n w).trace = s.trace := rfl
@[simp] theorem withFetchWord_mem :
    (s.withFetchWord n w).mem = Memory.writeWord s.cfg.byteOrder s.mem s.pc.toNat (tableWord n w) := rfl

@[simp] theorem resetWith_cfg : (State.resetWith c).cfg = c := rfl
@[simp] theorem resetWith_regs :
    (State.resetWith c).regs = (Vector.replicate 32 0).setIfInBounds c.spIndex c.spReset := rfl
@[simp] theorem resetWith_pc : (State.resetWith c).pc = BitVec.ofNat 32 c.base := rfl
@[simp] theorem resetWith_mem : (State.resetWith c).mem = [] := rfl
@[simp] theorem resetWith_status : (State.resetWith c).status = .running := rfl
@[simp] theorem resetWith_trace : (State.resetWith c).trace = [] := rfl

end Sys2Proof.Machine
end

