-- ==== Sys2Proof/Laws/Ops.lean ====
section
/-! SUPPORT. One lemma for each shared operation that says everything it can do: the register ports, the address
checks, the commit of a step, and (by `effectOf`) the outcome of every instruction's meaning. -/

namespace Sys2Proof.Machine

/-! ### Register ports -/

theorem hardwired_eq_true {c : Config} {i : RegIdx} : hardwired c i = true ↔ c.r0Hardwired = true ∧ i = 0 := by
  simp [hardwired]

theorem hardwired_eq_false {c : Config} {i : RegIdx} :
    hardwired c i = false ↔ ¬(c.r0Hardwired = true ∧ i = 0) := by
  rw [← hardwired_eq_true, Bool.not_eq_true]

/-- A read after a write (R21). -/
theorem readFile_writeFile (c : Config) (regs : Vector Word 32) (d r : RegIdx) (v : Word) :
    readFile c (writeFile c regs d v) r =
      if r = d ∧ hardwired c d = false then v else readFile c regs r := by
  unfold writeFile
  by_cases hd : hardwired c d = true
  · simp [hd]
  · rw [if_neg hd]
    by_cases hr : r = d
    · subst hr; simp [readFile, hd]
    · have hne : ¬ d.toNat = r.toNat := fun h => hr (BitVec.eq_of_toNat_eq h.symm)
      have : (regs.set d.toNat v d.isLt)[r.toNat]'r.isLt = regs[r.toNat]'r.isLt :=
        Vector.getElem_set_ne _ _ hne
      simp only [readFile, this, hr, false_and, if_false]

/-- What a register reads as after a commit (R115, R122). -/
theorem readReg_commit (i : Instr) (e : Effect) (s : State) (r : RegIdx) :
    (commit i e s).readReg r =
      match e.reg with
      | some (d, v) => if r = d ∧ hardwired s.cfg d = false then v else s.readReg r
      | none => s.readReg r := by
  unfold State.readReg
  rw [commit_cfg, commit_regs]
  cases h : e.reg with
  | none => rfl
  | some p => exact readFile_writeFile _ _ _ _ _

/-- A suppressed read gives 0 (R21). -/
theorem readReg_hardwired {s : State} {r : RegIdx} (h : hardwired s.cfg r = true) : s.readReg r = 0 := by
  simp [State.readReg, readFile, h]

/-! ### The branch test (R211, R218) -/

/-- The ALU difference is 0 exactly where the registers are equal. -/
theorem branchDifference_eq_zero {s : State} {rs rt : RegIdx} :
    branchDifference s rs rt = 0 ↔ s.readReg rs = s.readReg rt := by
  unfold branchDifference
  constructor <;> intro h <;> bv_omega

theorem branchPc_beq (s : State) (rs rt : RegIdx) (target : Word) :
    branchPc s (branchDifference s rs rt == 0) target =
      if s.readReg rs = s.readReg rt then target else s.pc + 4 := by
  simp only [branchPc, beq_iff_eq, branchDifference_eq_zero, sequentialPc]

theorem branchPc_bne (s : State) (rs rt : RegIdx) (target : Word) :
    branchPc s (branchDifference s rs rt != 0) target =
      if s.readReg rs = s.readReg rt then s.pc + 4 else target := by
  simp only [branchPc, bne_iff_ne, ne_eq, branchDifference_eq_zero, sequentialPc, ite_not]

/-! ### Address checks -/

theorem fetchable_iff {c : Config} {pc : Word} :
    fetchable c pc = true ↔ pc.toNat % 4 = 0 ∧ c.base ≤ pc.toNat ∧ pc.toNat < c.dataBase := by
  simp [fetchable, and_assoc]

theorem accessible_iff {c : Config} {ea : Word} :
    accessible c ea = true ↔ ea.toNat % 4 = 0 ∧ c.dataBase ≤ ea.toNat ∧ ea.toNat < c.dataEnd := by
  simp [accessible, and_assoc]

theorem wf_iff {c : Config} :
    c.wf = true ↔ c.base % 4 = 0 ∧ 1 ≤ c.imemWords ∧ 1 ≤ c.dmemWords ∧ c.dataEnd ≤ 2 ^ 32 ∧ c.spIndex < 32 ∧
      ¬(c.r0Hardwired = true ∧ c.spIndex = 0) := by
  simp only [Config.wf, Config.baseAligned, Config.hasImem, Config.hasDmem, Config.fitsAddressSpace, Config.spInFile,
    Config.spNotHardwired, Bool.and_eq_true, beq_iff_eq, decide_eq_true_eq, and_assoc, Bool.not_eq_true',
    ← Bool.not_eq_true, not_and_or]

theorem fetchable_eq_false {c : Config} {pc : Word} :
    fetchable c pc = false ↔ pc.toNat % 4 ≠ 0 ∨ pc.toNat < c.base ∨ c.dataBase ≤ pc.toNat := by
  rw [← Bool.not_eq_true, fetchable_iff]; omega

theorem accessible_eq_false {c : Config} {ea : Word} :
    accessible c ea = false ↔ ea.toNat % 4 ≠ 0 ∨ ea.toNat < c.dataBase ∨ c.dataEnd ≤ ea.toNat := by
  rw [← Bool.not_eq_true, accessible_iff]; omega

theorem dataBase_eq (c : Config) : c.dataBase = c.base + 4 * c.imemWords := rfl
theorem dataEnd_eq (c : Config) : c.dataEnd = c.base + 4 * c.imemWords + 4 * c.dmemWords := rfl

theorem fetch_eq_some {s : State} {w : Word} :
    fetch s = some w ↔ fetchable s.cfg s.pc = true ∧ s.wordAt s.pc.toNat = w := by
  simp [fetch]

theorem fetch_eq_none {s : State} : fetch s = none ↔ fetchable s.cfg s.pc = false := by
  simp [fetch]

/-! ### The commit and memory -/

/-- A commit keeps the canonical form. -/
theorem wf_commitStore {c : Config} {m : List Host.Cell} (hm : Memory.wf m) (store : Option (Word × Word)) :
    Memory.wf (commitStore c m store) := by
  cases store with
  | none => exact hm
  | some p => exact Memory.wf_writeWord hm

/-- Placing a fetch word keeps the canonical form. -/
theorem wf_withFetchWord {s : State} (hm : Memory.wf s.mem) (n w : Nat) : Memory.wf (s.withFetchWord n w).mem :=
  Memory.wf_writeWord hm

/-- The word placed where the next step fetches is the word fetched, where the pc can be fetched from. -/
theorem fetch_withFetchWord {s : State} (hm : Memory.wf s.mem) (hp : fetchable s.cfg s.pc = true) (n w : Nat) :
    fetch (s.withFetchWord n w) = some (tableWord n w) :=
  fetch_eq_some.2 ⟨hp, Memory.readWord_writeWord_same hm⟩

/-! ### What each meaning does -/

/-- The effect of an instruction, or the fault it takes: a summary of the 18 meanings, from which `exec_eq` says what
`exec` answers. -/
def effectOf (i : Instr) (s : State) : Except Fault Effect :=
  match i with
  | .sll _ rt rd shamt => .ok { reg := some (rd, shiftLeft (s.readReg rt) shamt), nextPc := sequentialPc s }
  | .srl _ rt rd shamt => .ok { reg := some (rd, shiftRight (s.readReg rt) shamt), nextPc := sequentialPc s }
  | .jr rs _ _ _ => .ok { nextPc := s.readReg rs }
  | .addu rs rt rd _ => .ok { reg := some (rd, s.readReg rs + s.readReg rt), nextPc := sequentialPc s }
  | .subu rs rt rd _ => .ok { reg := some (rd, s.readReg rs - s.readReg rt), nextPc := sequentialPc s }
  | .and rs rt rd _ => .ok { reg := some (rd, s.readReg rs &&& s.readReg rt), nextPc := sequentialPc s }
  | .or rs rt rd _ => .ok { reg := some (rd, s.readReg rs ||| s.readReg rt), nextPc := sequentialPc s }
  | .slt rs rt rd _ => .ok { reg := some (rd, setLessThan (s.readReg rs) (s.readReg rt)), nextPc := sequentialPc s }
  | .j t => .ok { nextPc := jumpTarget t }
  | .jal t => .ok { reg := some (linkRegister, sequentialPc s), nextPc := jumpTarget t }
  | .beq rs rt imm => .ok { nextPc := branchPc s (branchDifference s rs rt == 0) (branchTarget s.pc imm) }
  | .bne rs rt imm => .ok { nextPc := branchPc s (branchDifference s rs rt != 0) (branchTarget s.pc imm) }
  | .addiu rs rt imm => .ok { reg := some (rt, s.readReg rs + sext32 imm), nextPc := sequentialPc s }
  | .andi rs rt imm => .ok { reg := some (rt, s.readReg rs &&& zext32 imm), nextPc := sequentialPc s }
  | .ori rs rt imm => .ok { reg := some (rt, s.readReg rs ||| zext32 imm), nextPc := sequentialPc s }
  | .lui _ rt imm => .ok { reg := some (rt, upperImmediate imm), nextPc := sequentialPc s }
  | .lw rs rt imm =>
    if accessible s.cfg (effectiveAddress s rs imm) then
      .ok { reg := some (rt, s.wordAt (effectiveAddress s rs imm).toNat), nextPc := sequentialPc s }
    else .error (.memoryFault s.pc (effectiveAddress s rs imm))
  | .sw rs rt imm =>
    if accessible s.cfg (effectiveAddress s rs imm) then
      .ok { store := some (effectiveAddress s rs imm, s.readReg rt), nextPc := sequentialPc s }
    else .error (.memoryFault s.pc (effectiveAddress s rs imm))

/-- Every meaning answers a next state: the commit of its effect, or the fault taken (R124). -/
theorem exec_eq (i : Instr) (s : State) :
    exec i s = match effectOf i s with
      | .ok e => .next (commit i e s)
      | .error f => .next (takeFault f s) := by
  cases i <;> try rfl
  · simp only [exec, execLw, withDataAddress, effectOf]; split <;> rfl
  · simp only [exec, execSw, withDataAddress, effectOf]; split <;> rfl

/-- Where the summary gives an effect, the instruction completes with it. -/
theorem exec_of_effect {i : Instr} {s : State} {e : Effect} (h : effectOf i s = .ok e) :
    exec i s = .next (commit i e s) := by rw [exec_eq, h]

/-- Where the summary gives a fault, the instruction takes it. -/
theorem exec_of_fault {i : Instr} {s : State} {f : Fault} (h : effectOf i s = .error f) :
    exec i s = .next (takeFault f s) := by rw [exec_eq, h]

theorem effectOf_lw {s : State} {rs rt : RegIdx} {imm : BitVec 16}
    (h : accessible s.cfg (effectiveAddress s rs imm) = true) :
    effectOf (.lw rs rt imm) s =
      .ok { reg := some (rt, s.wordAt (effectiveAddress s rs imm).toNat), nextPc := sequentialPc s } := by
  rw [effectOf, if_pos h]

theorem effectOf_sw {s : State} {rs rt : RegIdx} {imm : BitVec 16}
    (h : accessible s.cfg (effectiveAddress s rs imm) = true) :
    effectOf (.sw rs rt imm) s =
      .ok { store := some (effectiveAddress s rs imm, s.readReg rt), nextPc := sequentialPc s } := by
  rw [effectOf, if_pos h]

theorem effectOf_lw_fault {s : State} {rs rt : RegIdx} {imm : BitVec 16}
    (h : accessible s.cfg (effectiveAddress s rs imm) = false) :
    effectOf (.lw rs rt imm) s = .error (.memoryFault s.pc (effectiveAddress s rs imm)) := by
  rw [effectOf, if_neg (by simp [h])]

theorem effectOf_sw_fault {s : State} {rs rt : RegIdx} {imm : BitVec 16}
    (h : accessible s.cfg (effectiveAddress s rs imm) = false) :
    effectOf (.sw rs rt imm) s = .error (.memoryFault s.pc (effectiveAddress s rs imm)) := by
  rw [effectOf, if_neg (by simp [h])]

/-- Every instruction answers a next state: a commit or a fault taken. -/
theorem exec_next_cases {i : Instr} {s t : State} (h : exec i s = .next t) :
    (∃ e, effectOf i s = .ok e ∧ t = commit i e s) ∨ (∃ f, effectOf i s = .error f ∧ t = takeFault f s) := by
  rw [exec_eq] at h
  cases he : effectOf i s with
  | ok e => rw [he] at h; exact .inl ⟨e, rfl, by cases h; rfl⟩
  | error f => rw [he] at h; exact .inr ⟨f, rfl, by cases h; rfl⟩

/-- Only a load or a store takes a fault, and it is MemoryFault on the address that failed the check (R234). -/
theorem effectOf_error {i : Instr} {s : State} {f : Fault} (h : effectOf i s = .error f) :
    ∃ rs rt imm, (i = .lw rs rt imm ∨ i = .sw rs rt imm) ∧ f = .memoryFault s.pc (effectiveAddress s rs imm) ∧
      accessible s.cfg (effectiveAddress s rs imm) = false := by
  cases i with
  | lw rs rt imm =>
    simp only [effectOf] at h
    split at h
    · cases h
    · exact ⟨rs, rt, imm, .inl rfl, by cases h; rfl, eq_false_of_ne_true ‹_›⟩
  | sw rs rt imm =>
    simp only [effectOf] at h
    split at h
    · cases h
    · exact ⟨rs, rt, imm, .inr rfl, by cases h; rfl, eq_false_of_ne_true ‹_›⟩
  | _ => simp [effectOf] at h

/-- An effect that stores is that of an `sw` whose address passed the check. -/
theorem effectOf_store {i : Instr} {s : State} {e : Effect} {a v : Word} (h : effectOf i s = .ok e)
    (hs : e.store = some (a, v)) :
    ∃ rs rt imm, i = .sw rs rt imm ∧ a = effectiveAddress s rs imm ∧ v = s.readReg rt ∧ accessible s.cfg a = true := by
  cases i with
  | sw rs rt imm =>
    simp only [effectOf] at h
    split at h
    · cases h
      cases hs
      exact ⟨rs, rt, imm, rfl, rfl, rfl, ‹_›⟩
    · cases h
  | lw rs rt imm =>
    simp only [effectOf] at h
    split at h
    · cases h; cases hs
    · cases h
  | _ => simp only [effectOf, Except.ok.injEq] at h; subst h; simp at hs

end Sys2Proof.Machine
end

