-- ==== Sys2Proof/Laws/Datapath.lean ====
section
/-! SUPPORT. The small laws of the datapath sub-blocks: what the translators answer where the address checks pass or
fail, and where a translated word lies. -/

namespace Sys2Proof.Machine

variable {c : Config}

theorem translateFetch_of_fetchable {pc : Word} (h : fetchable c pc = true) :
    translateFetch c pc = some ((pc.toNat - c.base) / 4) := by
  have h := fetchable_iff.1 h
  rw [translateFetch, if_neg (by omega), if_neg (by omega)]

theorem translateFetch_of_not_fetchable {pc : Word} (h : fetchable c pc = false) : translateFetch c pc = none := by
  have h := fetchable_eq_false.1 h
  unfold translateFetch
  split_ifs <;> first | rfl | omega

theorem translateData_of_accessible {ea : Word} (h : accessible c ea = true) :
    translateData c ea = some ((ea.toNat - c.dataBase) / 4) := by
  have h := accessible_iff.1 h
  rw [translateData, if_neg (by omega), if_neg (by omega)]

theorem translateData_of_not_accessible {ea : Word} (h : accessible c ea = false) : translateData c ea = none := by
  have h := accessible_eq_false.1 h
  unfold translateData
  split_ifs <;> first | rfl | omega

/-- The word of a translated pc lies at the pc (R32, R54). -/
theorem fetch_address {pc : Word} (hwf : c.wf = true) (h : fetchable c pc = true) :
    c.base + 4 * ((pc.toNat - c.base) / 4) = pc.toNat := by
  have := wf_iff.1 hwf
  have := fetchable_iff.1 h
  omega

/-- The word of a translated effective address lies at that address (R32, R53). -/
theorem data_address {ea : Word} (hwf : c.wf = true) (h : accessible c ea = true) :
    c.dataBase + 4 * ((ea.toNat - c.dataBase) / 4) = ea.toNat := by
  have := wf_iff.1 hwf
  have := dataBase_eq c
  have := accessible_iff.1 h
  omega

end Sys2Proof.Machine
end

