-- ==== Sys2Proof/Laws/Decode.lean ====
section
/-! SUPPORT. The small laws of the encoding: what each field of an assembled word is, how a word is put together from
its fields, and that the table functions and their inverses agree. -/

namespace Sys2Proof

/-! ### The table -/

theorem rOpOf_functCode (op : ROp) : rOpOf (functCode op) = some op := by cases op <;> decide
theorem jOpOf_jCode (op : JOp) : jOpOf (jCode op) = some op := by cases op <;> decide
theorem iOpOf_iCode (op : IOp) : iOpOf (iCode op) = some op := by cases op <;> decide

theorem functCode_of_rOpOf {f : BitVec 6} {op : ROp} (h : rOpOf f = some op) : functCode op = f := by
  simpa using List.find?_some h
theorem jCode_of_jOpOf {c : BitVec 6} {op : JOp} (h : jOpOf c = some op) : jCode op = c := by
  simpa using List.find?_some h
theorem iCode_of_iOpOf {c : BitVec 6} {op : IOp} (h : iOpOf c = some op) : iCode op = c := by
  simpa using List.find?_some h

theorem jCode_ne_rOpcode (op : JOp) : jCode op ≠ rOpcode := by cases op <;> decide
theorem iCode_ne_rOpcode (op : IOp) : iCode op ≠ rOpcode := by cases op <;> decide
theorem jOpOf_iCode (op : IOp) : jOpOf (iCode op) = none := by cases op <;> decide

/-! ### Fields of an assembled word -/

section
variable (op : ROp) (rs rt rd : RegIdx) (shamt : BitVec 5)

theorem opcodeField_encodeR : opcodeField (encodeR op rs rt rd shamt) = rOpcode := by
  apply BitVec.eq_of_getLsbD_eq
  intro i hi
  simp only [opcodeField, encodeR, BitVec.getLsbD_extractLsb', BitVec.getLsbD_append]
  interval_cases i <;> simp

theorem rsField_encodeR : rsField (encodeR op rs rt rd shamt) = rs := by
  apply BitVec.eq_of_getLsbD_eq
  intro i hi
  simp only [rsField, encodeR, BitVec.getLsbD_extractLsb', BitVec.getLsbD_append]
  interval_cases i <;> simp

theorem rtField_encodeR : rtField (encodeR op rs rt rd shamt) = rt := by
  apply BitVec.eq_of_getLsbD_eq
  intro i hi
  simp only [rtField, encodeR, BitVec.getLsbD_extractLsb', BitVec.getLsbD_append]
  interval_cases i <;> simp

theorem rdField_encodeR : rdField (encodeR op rs rt rd shamt) = rd := by
  apply BitVec.eq_of_getLsbD_eq
  intro i hi
  simp only [rdField, encodeR, BitVec.getLsbD_extractLsb', BitVec.getLsbD_append]
  interval_cases i <;> simp

theorem shamtField_encodeR : shamtField (encodeR op rs rt rd shamt) = shamt := by
  apply BitVec.eq_of_getLsbD_eq
  intro i hi
  simp only [shamtField, encodeR, BitVec.getLsbD_extractLsb', BitVec.getLsbD_append]
  interval_cases i <;> simp

theorem functField_encodeR : functField (encodeR op rs rt rd shamt) = functCode op := by
  apply BitVec.eq_of_getLsbD_eq
  intro i hi
  simp only [functField, encodeR, BitVec.getLsbD_extractLsb', BitVec.getLsbD_append]
  interval_cases i <;> simp

end

section
variable (op : JOp) (t : BitVec 26)

theorem opcodeField_encodeJ : opcodeField (encodeJ op t) = jCode op := by
  apply BitVec.eq_of_getLsbD_eq
  intro i hi
  simp only [opcodeField, encodeJ, BitVec.getLsbD_extractLsb', BitVec.getLsbD_append]
  interval_cases i <;> simp

theorem targetField_encodeJ : targetField (encodeJ op t) = t := by
  apply BitVec.eq_of_getLsbD_eq
  intro i hi
  simp only [targetField, encodeJ, BitVec.getLsbD_extractLsb', BitVec.getLsbD_append]
  interval_cases i <;> simp

end

section
variable (op : IOp) (rs rt : RegIdx) (imm16 : BitVec 16)

theorem opcodeField_encodeI : opcodeField (encodeI op rs rt imm16) = iCode op := by
  apply BitVec.eq_of_getLsbD_eq
  intro i hi
  simp only [opcodeField, encodeI, BitVec.getLsbD_extractLsb', BitVec.getLsbD_append]
  interval_cases i <;> simp

theorem rsField_encodeI : rsField (encodeI op rs rt imm16) = rs := by
  apply BitVec.eq_of_getLsbD_eq
  intro i hi
  simp only [rsField, encodeI, BitVec.getLsbD_extractLsb', BitVec.getLsbD_append]
  interval_cases i <;> simp

theorem rtField_encodeI : rtField (encodeI op rs rt imm16) = rt := by
  apply BitVec.eq_of_getLsbD_eq
  intro i hi
  simp only [rtField, encodeI, BitVec.getLsbD_extractLsb', BitVec.getLsbD_append]
  interval_cases i <;> simp

theorem immField_encodeI : immField (encodeI op rs rt imm16) = imm16 := by
  apply BitVec.eq_of_getLsbD_eq
  intro i hi
  simp only [immField, encodeI, BitVec.getLsbD_extractLsb', BitVec.getLsbD_append]
  interval_cases i <;> simp

end

/-! ### A word is put together from its fields (R82 to R84) -/

theorem word_eq_r_fields (w : Word) :
    w = (opcodeField w ++ rsField w ++ rtField w ++ rdField w ++ shamtField w ++ functField w : BitVec 32) := by
  apply BitVec.eq_of_getLsbD_eq
  intro i hi
  simp only [opcodeField, rsField, rtField, rdField, shamtField, functField, BitVec.getLsbD_extractLsb',
    BitVec.getLsbD_append]
  interval_cases i <;> simp

theorem word_eq_j_fields (w : Word) : w = (opcodeField w ++ targetField w : BitVec 32) := by
  apply BitVec.eq_of_getLsbD_eq
  intro i hi
  simp only [opcodeField, targetField, BitVec.getLsbD_extractLsb', BitVec.getLsbD_append]
  interval_cases i <;> simp

theorem word_eq_i_fields (w : Word) :
    w = (opcodeField w ++ rsField w ++ rtField w ++ immField w : BitVec 32) := by
  apply BitVec.eq_of_getLsbD_eq
  intro i hi
  simp only [opcodeField, rsField, rtField, immField, BitVec.getLsbD_extractLsb', BitVec.getLsbD_append]
  interval_cases i <;> simp

/-! ### The encoder by format -/

theorem encode_rInstr (op : ROp) (rs rt rd : RegIdx) (shamt : BitVec 5) :
    encode (op.instr rs rt rd shamt) = encodeR op rs rt rd shamt := by cases op <;> rfl
theorem encode_jInstr (op : JOp) (t : BitVec 26) : encode (op.instr t) = encodeJ op t := by cases op <;> rfl
theorem encode_iInstr (op : IOp) (rs rt : RegIdx) (imm16 : BitVec 16) :
    encode (op.instr rs rt imm16) = encodeI op rs rt imm16 := by cases op <;> rfl

/-! ### What the decoder can answer -/

/-- The four ways a word decodes (R94): one of the three formats with its fields, or one of the two errors. -/
theorem decodeWord_cases (w : Word) :
    (∃ op, opcodeField w = rOpcode ∧ rOpOf (functField w) = some op ∧
      decodeWord w = .ok (op.instr (rsField w) (rtField w) (rdField w) (shamtField w))) ∨
    (∃ op, opcodeField w ≠ rOpcode ∧ jOpOf (opcodeField w) = some op ∧
      decodeWord w = .ok (op.instr (targetField w))) ∨
    (∃ op, opcodeField w ≠ rOpcode ∧ jOpOf (opcodeField w) = none ∧ iOpOf (opcodeField w) = some op ∧
      decodeWord w = .ok (op.instr (rsField w) (rtField w) (immField w))) ∨
    (opcodeField w = rOpcode ∧ rOpOf (functField w) = none ∧ decodeWord w = .error .unsupportedFunct) ∨
    (opcodeField w ≠ rOpcode ∧ jOpOf (opcodeField w) = none ∧ iOpOf (opcodeField w) = none ∧
      decodeWord w = .error .unsupportedOpcode) := by
  by_cases hop : opcodeField w = rOpcode
  · cases hr : rOpOf (functField w) with
    | some op => exact .inl ⟨op, hop, rfl, by simp [decodeWord, hop, hr]⟩
    | none => exact .inr (.inr (.inr (.inl ⟨hop, rfl, by simp [decodeWord, hop, hr]⟩)))
  · cases hj : jOpOf (opcodeField w) with
    | some op => exact .inr (.inl ⟨op, hop, rfl, by simp [decodeWord, hop, hj]⟩)
    | none =>
      cases hi : iOpOf (opcodeField w) with
      | some op => exact .inr (.inr (.inl ⟨op, hop, rfl, rfl, by simp [decodeWord, hop, hj, hi]⟩))
      | none => exact .inr (.inr (.inr (.inr ⟨hop, rfl, rfl, by simp [decodeWord, hop, hj, hi]⟩)))

end Sys2Proof
end

