-- ==== Sys2Proof/Laws/PerInstr.lean ====
section
/-! SUPPORT. A family of statements made per instruction: the word of an instruction is a word of its row of
spec/opcode_table.json, whatever its operands and ignored fields hold (R90 to R92). -/

namespace Sys2Proof.Laws.EncodedRow

/-- The `match` and `mask` of an instruction's row of spec/opcode_table.json. -/
def row : Instr → Word × Word
  | .sll _ _ _ _ => (0x00000000, 0xFC00003F)
  | .srl _ _ _ _ => (0x00000002, 0xFC00003F)
  | .jr _ _ _ _ => (0x00000008, 0xFC00003F)
  | .addu _ _ _ _ => (0x00000021, 0xFC00003F)
  | .subu _ _ _ _ => (0x00000023, 0xFC00003F)
  | .and _ _ _ _ => (0x00000024, 0xFC00003F)
  | .or _ _ _ _ => (0x00000025, 0xFC00003F)
  | .slt _ _ _ _ => (0x0000002A, 0xFC00003F)
  | .j _ => (0x08000000, 0xFC000000)
  | .jal _ => (0x0C000000, 0xFC000000)
  | .beq _ _ _ => (0x10000000, 0xFC000000)
  | .bne _ _ _ => (0x14000000, 0xFC000000)
  | .addiu _ _ _ => (0x24000000, 0xFC000000)
  | .andi _ _ _ => (0x30000000, 0xFC000000)
  | .ori _ _ _ => (0x34000000, 0xFC000000)
  | .lui _ _ _ => (0x3C000000, 0xFC000000)
  | .lw _ _ _ => (0x8C000000, 0xFC000000)
  | .sw _ _ _ => (0xAC000000, 0xFC000000)

/-- The word has the row's bits under the row's mask. -/
def Statement (i : Instr) : Prop := encode i &&& (row i).2 = (row i).1

/-- An R-format word under the R rows' mask. -/
theorem rFormat (op : ROp) (rs rt rd : RegIdx) (shamt : BitVec 5) :
    encodeR op rs rt rd shamt &&& 0xFC00003F = (functCode op).zeroExtend 32 := by
  apply BitVec.eq_of_getLsbD_eq
  intro k hk
  simp only [encodeR, BitVec.getLsbD_and, BitVec.getLsbD_append, BitVec.truncate_eq_setWidth, BitVec.getLsbD_setWidth]
  interval_cases k <;> simp [rOpcode]

/-- A J-format word under the opcode mask. -/
theorem jFormat (op : JOp) (target26 : BitVec 26) :
    encodeJ op target26 &&& 0xFC000000 = (jCode op).zeroExtend 32 <<< 26 := by
  apply BitVec.eq_of_getLsbD_eq
  intro k hk
  simp only [encodeJ, BitVec.getLsbD_and, BitVec.getLsbD_append, BitVec.truncate_eq_setWidth, BitVec.getLsbD_setWidth,
    BitVec.getLsbD_shiftLeft]
  interval_cases k <;> simp

/-- An I-format word under the opcode mask. -/
theorem iFormat (op : IOp) (rs rt : RegIdx) (imm16 : BitVec 16) :
    encodeI op rs rt imm16 &&& 0xFC000000 = (iCode op).zeroExtend 32 <<< 26 := by
  apply BitVec.eq_of_getLsbD_eq
  intro k hk
  simp only [encodeI, BitVec.getLsbD_and, BitVec.getLsbD_append, BitVec.truncate_eq_setWidth, BitVec.getLsbD_setWidth,
    BitVec.getLsbD_shiftLeft]
  interval_cases k <;> simp

end Sys2Proof.Laws.EncodedRow

open Sys2Proof

theorem Sys2Proof.Laws.EncodedRow.sll (rs rt rd : RegIdx) (shamt : BitVec 5) :
    Sys2Proof.Laws.EncodedRow.Statement (.sll rs rt rd shamt) :=
  (Sys2Proof.Laws.EncodedRow.rFormat .sll rs rt rd shamt).trans rfl
theorem Sys2Proof.Laws.EncodedRow.srl (rs rt rd : RegIdx) (shamt : BitVec 5) :
    Sys2Proof.Laws.EncodedRow.Statement (.srl rs rt rd shamt) :=
  (Sys2Proof.Laws.EncodedRow.rFormat .srl rs rt rd shamt).trans rfl
theorem Sys2Proof.Laws.EncodedRow.jr (rs rt rd : RegIdx) (shamt : BitVec 5) :
    Sys2Proof.Laws.EncodedRow.Statement (.jr rs rt rd shamt) :=
  (Sys2Proof.Laws.EncodedRow.rFormat .jr rs rt rd shamt).trans rfl
theorem Sys2Proof.Laws.EncodedRow.addu (rs rt rd : RegIdx) (shamt : BitVec 5) :
    Sys2Proof.Laws.EncodedRow.Statement (.addu rs rt rd shamt) :=
  (Sys2Proof.Laws.EncodedRow.rFormat .addu rs rt rd shamt).trans rfl
theorem Sys2Proof.Laws.EncodedRow.subu (rs rt rd : RegIdx) (shamt : BitVec 5) :
    Sys2Proof.Laws.EncodedRow.Statement (.subu rs rt rd shamt) :=
  (Sys2Proof.Laws.EncodedRow.rFormat .subu rs rt rd shamt).trans rfl
theorem Sys2Proof.Laws.EncodedRow.and (rs rt rd : RegIdx) (shamt : BitVec 5) :
    Sys2Proof.Laws.EncodedRow.Statement (.and rs rt rd shamt) :=
  (Sys2Proof.Laws.EncodedRow.rFormat .and rs rt rd shamt).trans rfl
theorem Sys2Proof.Laws.EncodedRow.or (rs rt rd : RegIdx) (shamt : BitVec 5) :
    Sys2Proof.Laws.EncodedRow.Statement (.or rs rt rd shamt) :=
  (Sys2Proof.Laws.EncodedRow.rFormat .or rs rt rd shamt).trans rfl
theorem Sys2Proof.Laws.EncodedRow.slt (rs rt rd : RegIdx) (shamt : BitVec 5) :
    Sys2Proof.Laws.EncodedRow.Statement (.slt rs rt rd shamt) :=
  (Sys2Proof.Laws.EncodedRow.rFormat .slt rs rt rd shamt).trans rfl
theorem Sys2Proof.Laws.EncodedRow.j (target26 : BitVec 26) :
    Sys2Proof.Laws.EncodedRow.Statement (.j target26) :=
  (Sys2Proof.Laws.EncodedRow.jFormat .j target26).trans rfl
theorem Sys2Proof.Laws.EncodedRow.jal (target26 : BitVec 26) :
    Sys2Proof.Laws.EncodedRow.Statement (.jal target26) :=
  (Sys2Proof.Laws.EncodedRow.jFormat .jal target26).trans rfl
theorem Sys2Proof.Laws.EncodedRow.beq (rs rt : RegIdx) (imm16 : BitVec 16) :
    Sys2Proof.Laws.EncodedRow.Statement (.beq rs rt imm16) :=
  (Sys2Proof.Laws.EncodedRow.iFormat .beq rs rt imm16).trans rfl
theorem Sys2Proof.Laws.EncodedRow.bne (rs rt : RegIdx) (imm16 : BitVec 16) :
    Sys2Proof.Laws.EncodedRow.Statement (.bne rs rt imm16) :=
  (Sys2Proof.Laws.EncodedRow.iFormat .bne rs rt imm16).trans rfl
theorem Sys2Proof.Laws.EncodedRow.addiu (rs rt : RegIdx) (imm16 : BitVec 16) :
    Sys2Proof.Laws.EncodedRow.Statement (.addiu rs rt imm16) :=
  (Sys2Proof.Laws.EncodedRow.iFormat .addiu rs rt imm16).trans rfl
theorem Sys2Proof.Laws.EncodedRow.andi (rs rt : RegIdx) (imm16 : BitVec 16) :
    Sys2Proof.Laws.EncodedRow.Statement (.andi rs rt imm16) :=
  (Sys2Proof.Laws.EncodedRow.iFormat .andi rs rt imm16).trans rfl
theorem Sys2Proof.Laws.EncodedRow.ori (rs rt : RegIdx) (imm16 : BitVec 16) :
    Sys2Proof.Laws.EncodedRow.Statement (.ori rs rt imm16) :=
  (Sys2Proof.Laws.EncodedRow.iFormat .ori rs rt imm16).trans rfl
theorem Sys2Proof.Laws.EncodedRow.lui (rs rt : RegIdx) (imm16 : BitVec 16) :
    Sys2Proof.Laws.EncodedRow.Statement (.lui rs rt imm16) :=
  (Sys2Proof.Laws.EncodedRow.iFormat .lui rs rt imm16).trans rfl
theorem Sys2Proof.Laws.EncodedRow.lw (rs rt : RegIdx) (imm16 : BitVec 16) :
    Sys2Proof.Laws.EncodedRow.Statement (.lw rs rt imm16) :=
  (Sys2Proof.Laws.EncodedRow.iFormat .lw rs rt imm16).trans rfl
theorem Sys2Proof.Laws.EncodedRow.sw (rs rt : RegIdx) (imm16 : BitVec 16) :
    Sys2Proof.Laws.EncodedRow.Statement (.sw rs rt imm16) :=
  (Sys2Proof.Laws.EncodedRow.iFormat .sw rs rt imm16).trans rfl
end

