-- ==== Sys2Proof/Laws/Step.lean ====
section
/-! SUPPORT. What one step request can do, said once. -/

namespace Sys2Proof.Machine

/-- The ways a step request ends (R9, R125, R142, R231). -/
theorem step_cases (s : State) :
    (s.cfg.wf = false ∧ step s = .refused .illFormedConfiguration) ∨
    (s.cfg.wf = true ∧ s.status ≠ .running ∧ step s = .next s) ∨
    (s.cfg.wf = true ∧ s.status = .running ∧ fetchable s.cfg s.pc = false ∧
      step s = .next (takeFault (.fetchFault s.pc) s)) ∨
    (∃ e, s.cfg.wf = true ∧ s.status = .running ∧ fetchable s.cfg s.pc = true ∧
      decodeWord (s.wordAt s.pc.toNat) = .error e ∧
      step s = .next (takeFault (decodeFault e s.pc (s.wordAt s.pc.toNat)) s)) ∨
    (∃ i f, s.cfg.wf = true ∧ s.status = .running ∧ fetchable s.cfg s.pc = true ∧
      decodeWord (s.wordAt s.pc.toNat) = .ok i ∧ effectOf i s = .error f ∧ step s = .next (takeFault f s)) ∨
    (∃ i e, s.cfg.wf = true ∧ s.status = .running ∧ fetchable s.cfg s.pc = true ∧
      decodeWord (s.wordAt s.pc.toNat) = .ok i ∧ effectOf i s = .ok e ∧ step s = .next (commit i e s)) := by
  by_cases hwf : s.cfg.wf = true
  swap
  · exact .inl ⟨by simpa using hwf, by simp [step, stepRequest, hwf]⟩
  refine .inr ?_
  cases hst : s.status with
  | halted => exact .inl ⟨hwf, by simp, by simp [step, stepRequest, hwf, hst]⟩
  | faulted f => exact .inl ⟨hwf, by simp, by simp [step, stepRequest, hwf, hst]⟩
  | running =>
    refine .inr ?_
    by_cases hf : fetchable s.cfg s.pc = true
    swap
    · refine .inl ⟨hwf, rfl, by simpa using hf, ?_⟩
      simp [step, stepRequest, hwf, hst, runCycle, fetch, hf]
    refine .inr ?_
    have hstep : step s = decodeAndExecute (s.wordAt s.pc.toNat) s := by
      simp [step, stepRequest, hwf, hst, runCycle, fetch, hf]
    cases hd : decodeWord (s.wordAt s.pc.toNat) with
    | error e => exact .inl ⟨e, hwf, rfl, hf, rfl, by rw [hstep, decodeAndExecute, hd]⟩
    | ok i =>
      refine .inr ?_
      have hx : step s = exec i s := by rw [hstep, decodeAndExecute, hd]
      rw [exec_eq] at hx
      cases he : effectOf i s with
      | error f => exact .inl ⟨i, f, hwf, rfl, hf, rfl, he, by rw [hx, he]⟩
      | ok e => exact .inr ⟨i, e, hwf, rfl, hf, rfl, he, by rw [hx, he]⟩

end Sys2Proof.Machine
end

