-- ==== Sys2Proof/Tests/Slice0.lean ====
section
/-! SUPPORT. Tests of the definitions and witnesses of the statements' hypotheses. Every expected value is taken from
spec/95_test_vectors.md (the row is named) or worked by hand from the rule named; none is the model's own answer. -/

namespace Sys2Proof.Machine.Test

open Sys2Proof Sys2Proof.Machine

/-! ### Helpers -/

/-- The reset state with some registers replaced. -/
def start (rs : List (RegIdx × Word)) : State :=
  { State.reset with regs := rs.foldl (fun f p => f.set p.1.toNat p.2 p.1.isLt) State.reset.regs }

/-- `start` with another pc and the word `w` placed there. -/
def placed (pc : Word) (w : Nat) (rs : List (RegIdx × Word)) : State :=
  State.withFetchWord { start rs with pc := pc } 32 w

/-- Something read off the next state; none for a fault or a refusal. -/
def after {α : Type} (o : Host.Outcome State Fault Refusal) (g : State → α) : Option α :=
  match o with
  | .next t => some (g t)
  | .fault _ => none
  | .refused _ => none

/-- The state after one step, itself where the step stops. -/
def stepOf (s : State) : State := (after (step s) id).getD s

/-- The state after an instruction, itself where it stops. -/
def execOf (i : Instr) (s : State) : State := (after (exec i s) id).getD s

/-- One step of the word `w` at BASE: a register afterwards, and the pc. -/
def regAndPc (w : Nat) (rs : List (RegIdx × Word)) (r : RegIdx) : Option (Word × Word) :=
  after (step (placed 0x00400000 w rs)) (fun t => (t.readReg r, t.pc))

/-- The reset state with register 0 hardwired. -/
def zeroed (s : State) : State := { s with cfg := { s.cfg with r0Hardwired := true } }

/-- A machine of one instruction word and two data words at BASE 0. -/
def small (order : ByteOrder) : Config := Config.withDefaults 0 1 2 order

/-! ### The decoder: a word of every row, written from its encoding -/

theorem test_decode_sll : decodeWord (0#6 ++ 0#5 ++ 8#5 ++ 9#5 ++ 4#5 ++ 0x00#6) = .ok (.sll 0 8 9 4) := by decide
theorem test_decode_srl : decodeWord (0#6 ++ 0#5 ++ 4#5 ++ 3#5 ++ 1#5 ++ 0x02#6) = .ok (.srl 0 4 3 1) := by decide
theorem test_decode_jr : decodeWord (0#6 ++ 31#5 ++ 0#5 ++ 0#5 ++ 0#5 ++ 0x08#6) = .ok (.jr 31 0 0 0) := by decide
theorem test_decode_addu : decodeWord (0#6 ++ 8#5 ++ 9#5 ++ 10#5 ++ 0#5 ++ 0x21#6) = .ok (.addu 8 9 10 0) := by decide
theorem test_decode_subu : decodeWord (0#6 ++ 8#5 ++ 9#5 ++ 10#5 ++ 0#5 ++ 0x23#6) = .ok (.subu 8 9 10 0) := by decide
theorem test_decode_and : decodeWord (0#6 ++ 8#5 ++ 9#5 ++ 10#5 ++ 0#5 ++ 0x24#6) = .ok (.and 8 9 10 0) := by decide
theorem test_decode_or : decodeWord (0#6 ++ 9#5 ++ 8#5 ++ 9#5 ++ 0#5 ++ 0x25#6) = .ok (.or 9 8 9 0) := by decide
theorem test_decode_slt : decodeWord (0#6 ++ 0#5 ++ 4#5 ++ 2#5 ++ 0#5 ++ 0x2a#6) = .ok (.slt 0 4 2 0) := by decide
theorem test_decode_j : decodeWord (2#6 ++ 0x100004#26) = .ok (.j 0x100004) := by decide
theorem test_decode_jal : decodeWord (3#6 ++ 0x100004#26) = .ok (.jal 0x100004) := by decide
theorem test_decode_beq : decodeWord (4#6 ++ 8#5 ++ 9#5 ++ 0x0003#16) = .ok (.beq 8 9 0x0003) := by decide
theorem test_decode_bne : decodeWord (5#6 ++ 8#5 ++ 9#5 ++ 0xFFFE#16) = .ok (.bne 8 9 0xFFFE) := by decide
theorem test_decode_addiu : decodeWord (9#6 ++ 8#5 ++ 9#5 ++ 0xFFFF#16) = .ok (.addiu 8 9 0xFFFF) := by decide
theorem test_decode_andi : decodeWord (12#6 ++ 8#5 ++ 9#5 ++ 0xFF00#16) = .ok (.andi 8 9 0xFF00) := by decide
theorem test_decode_ori : decodeWord (13#6 ++ 8#5 ++ 9#5 ++ 0x8001#16) = .ok (.ori 8 9 0x8001) := by decide
theorem test_decode_lui : decodeWord (15#6 ++ 0#5 ++ 9#5 ++ 0x8001#16) = .ok (.lui 0 9 0x8001) := by decide
theorem test_decode_lw : decodeWord (35#6 ++ 8#5 ++ 9#5 ++ 0x0004#16) = .ok (.lw 8 9 0x0004) := by decide
theorem test_decode_sw : decodeWord (43#6 ++ 8#5 ++ 9#5 ++ 0xFFFC#16) = .ok (.sw 8 9 0xFFFC) := by decide

/-- V1 and the programs P1, P3, P7. -/
theorem test_decode_v1_words :
    decodeWord 0x00084900 = .ok (.sll 0 8 9 4) ∧ decodeWord 0x03E00008 = .ok (.jr 31 0 0 0) ∧
      decodeWord 0x0BFFFFFF = .ok (.j 0x3FFFFFF) ∧ decodeWord 0x11090003 = .ok (.beq 8 9 3) ∧
      decodeWord 0x3109FF00 = .ok (.andi 8 9 0xFF00) ∧ decodeWord 0x01495821 = .ok (.addu 10 9 11 0) ∧
      decodeWord 0x0004102A = .ok (.slt 0 4 2 0) ∧ decodeWord 0x00041842 = .ok (.srl 0 4 3 1) ∧
      decodeWord 0x01284825 = .ok (.or 9 8 9 0) := by decide
/-- V1, the decoded records. -/
theorem test_decoded_records_v1 :
    decodedRecord 0 (.jal 0x100004) = .j 3 0x00400010 ∧ decodedRecord 0 (.j 0x3FFFFFF) = .j 2 0x0FFFFFFC ∧
      decodedRecord 0x00400000 (.beq 8 9 3) = .i 4 8 9 0x00400010 ∧
      decodedRecord 0x00400008 (.bne 8 9 0xFFFE) = .i 5 8 9 0x00400004 ∧
      decodedRecord 0 (.addiu 8 9 0xFFFF) = .i 9 8 9 0xFFFFFFFF ∧
      decodedRecord 0 (.ori 8 9 0x8001) = .i 13 8 9 0x00008001 ∧
      decodedRecord 0 (.lui 0 9 0x8001) = .i 15 0 9 0xFFFF8001 ∧
      decodedRecord 0 (.sw 29 9 0xFFFC) = .i 43 29 9 0xFFFFFFFC := by decide
/-- V1: the two ends of the branch range. -/
theorem test_branch_target_ends :
    branchTarget 0x00400000 0x8000 = 0x003E0004 ∧ branchTarget 0x00400000 0x7FFF = 0x00420000 := by decide
/-- W1 and V1. -/
theorem test_rejected_words :
    decodeWord 0x00400009 = .error .unsupportedFunct ∧ decodeWord 0x0000000C = .error .unsupportedFunct ∧
      decodeWord 0x00000020 = .error .unsupportedFunct ∧ decodeWord 0x20000000 = .error .unsupportedOpcode ∧
      decodeWord 0x9C000000 = .error .unsupportedOpcode ∧ decodeWord 0xFC000000 = .error .unsupportedOpcode := by
  decide
/-- W2. -/
theorem test_table_word :
    decodeTableWord 32 0x01095021 = some (.addu 8 9 10 0) ∧ decodeTableWord 32 0xFC000000 = none := by decide
/-- R58, R80: one instruction takes four bytes. -/
theorem test_decode_bytes : (decodeBytes .big [0x24, 0x08, 0x00, 0x05, 0xFF]).map Prod.snd = some [0xFF] ∧
      (decodeBytes .little [0x24, 0x08, 0x00]).isNone = true := by decide

/-! ### WellFormed: a term that each check refuses -/

theorem test_reference_wf : Config.reference.wf = true := by decide
theorem test_wf_refuses_base : Config.wf { Config.reference with base := 0x00400002 } = false := by decide
theorem test_wf_refuses_imem : Config.wf { Config.reference with imemWords := 0 } = false := by decide
theorem test_wf_refuses_dmem : Config.wf { Config.reference with dmemWords := 0 } = false := by decide
theorem test_wf_refuses_space : Config.wf { Config.reference with base := 0xFFFFF000 } = false := by decide
theorem test_wf_refuses_sp : Config.wf { Config.reference with spIndex := 32 } = false := by decide
theorem test_wf_refuses_sp_zero :
    Config.wf { Config.reference with spIndex := 0, r0Hardwired := true } = false := by decide
/-- DATA_END = 2^32 exactly is allowed (R9). -/
theorem test_wf_accepts_full_space : Config.wf { Config.reference with base := 0xFFFFE000 } = true := by decide
theorem test_canonical_refuses : Instr.canonical (.sll 1 8 9 4) = false ∧ Instr.canonical (.srl 1 8 9 4) = false ∧
      Instr.canonical (.jr 31 1 0 0) = false ∧ Instr.canonical (.jr 31 0 31 0) = false ∧
      Instr.canonical (.jr 31 0 0 1) = false ∧ Instr.canonical (.addu 8 9 10 1) = false ∧
      Instr.canonical (.subu 8 9 10 1) = false ∧ Instr.canonical (.and 8 9 10 1) = false ∧
      Instr.canonical (.or 8 9 10 1) = false ∧ Instr.canonical (.slt 8 9 10 1) = false ∧
      Instr.canonical (.lui 1 9 0) = false := by decide
theorem test_memory_wf_refuses :
    ¬Memory.wf [(4, 1), (4, 2)] ∧ ¬Memory.wf [(8, 1), (4, 2)] ∧ ¬Memory.wf [(4, 0)] ∧ Memory.wf [(4, 1), (8, 2)] := by
  decide
/-- R98. -/
theorem test_assembler_refuses : assemble 0 (.addiu 9 8 32768) = none ∧ assemble 0 (.addiu 9 8 (-32769)) = none ∧
      assemble 0 (.ori 9 8 (-1)) = none ∧ assemble 0 (.ori 9 8 65536) = none ∧ assemble 0 (.j 2) = none ∧
      assemble 0 (.j 0x10000000) = none ∧ assemble 0x00400000 (.beq 8 9 0x00400002) = none ∧
      assemble 0x00400000 (.beq 8 9 0x00420004) = none := by decide
/-- P1, P2, P3. -/
theorem test_assembler_p_words : (assemble 0x00400010 (.bne 8 0 0x00400008)).map encode = some 0x1500FFFD ∧
      (assemble 0x00400004 (.jal 0x00400010)).map encode = some 0x0C100004 ∧
      (assemble 0x00400018 (.sw 11 (-4) 29)).map encode = some 0xAFABFFFC := by decide
/-- R99, P1. -/
theorem test_pseudo_instructions :
    (assemble 0x00400010 (pseudoB 0x00400010)).map encode = some 0x1000FFFF ∧
      assemble 0 (pseudoMove 9 8) = some (.addu 8 0 9 0) ∧ (assemble 0 pseudoNop).map encode = some 0 ∧
      (pseudoLi 8 0x00401000).map (fun a => (assemble 0 a).map encode) = [some 0x3C080040, some 0x35081000] := by
  decide
/-- R24. -/
theorem test_register_names :
    registerOfName "$sp" = some 29 ∧ registerOfName "$31" = some 31 ∧ registerOfName "$zero" = some 0 ∧
      registerOfName "$32" = none := by decide

/-! ### One step of each instruction -/

/-- V2. -/
theorem test_sll : regAndPc 0x00084840 [(8, 0x80000001)] 9 = some (0x00000002, 0x00400004) := by decide
/-- V2. -/
theorem test_sll_31 : regAndPc 0x00084fc0 [(8, 0x80000001)] 9 = some (0x80000000, 0x00400004) := by decide
/-- V2. -/
theorem test_srl : regAndPc 0x00084fc2 [(8, 0x80000001)] 9 = some (0x00000001, 0x00400004) := by decide
/-- V2. -/
theorem test_srl_zero_fill : regAndPc 0x00084c02 [(8, 0xFFFFFFFF)] 9 = some (0x0000FFFF, 0x00400004) := by decide
/-- W2. -/
theorem test_addu : regAndPc 0x01095021 [(8, 5), (9, 3)] 10 = some (8, 0x00400004) := by decide
/-- V2. -/
theorem test_addu_source_is_destination :
    regAndPc 0x01084021 [(8, 0x40000001)] 8 = some (0x80000002, 0x00400004) := by decide
/-- V2. -/
theorem test_subu : regAndPc 0x01095023 [(8, 3), (9, 5)] 10 = some (0xFFFFFFFE, 0x00400004) := by decide
/-- V2. -/
theorem test_subu_no_overflow :
    regAndPc 0x01095023 [(8, 0x80000000), (9, 1)] 10 = some (0x7FFFFFFF, 0x00400004) := by decide
/-- V2. -/
theorem test_and :
    regAndPc 0x01095024 [(8, 0xF0F0FFFF), (9, 0x0FF0F00F)] 10 = some (0x00F0F00F, 0x00400004) := by decide
/-- V2. -/
theorem test_or :
    regAndPc 0x01095025 [(8, 0xF0F0FFFF), (9, 0x0FF0F00F)] 10 = some (0xFFF0FFFF, 0x00400004) := by decide
/-- V2: signed. -/
theorem test_slt : regAndPc 0x0109502a [(8, 0x80000000), (9, 0x7FFFFFFF)] 10 = some (1, 0x00400004) := by decide
/-- V2: signed. -/
theorem test_slt_not_less : regAndPc 0x0109502a [(8, 1), (9, 0xFFFFFFFF)] 10 = some (0, 0x00400004) := by decide
/-- V3. -/
theorem test_addiu : regAndPc 0x25098000 [(8, 0x00401000)] 9 = some (0x003F9000, 0x00400004) := by decide
/-- V3. -/
theorem test_addiu_wraps : regAndPc 0x25090001 [(8, 0xFFFFFFFF)] 9 = some (0x00000000, 0x00400004) := by decide
/-- V3: not sign-extended. -/
theorem test_andi : regAndPc 0x31098000 [(8, 0xFFFFFFFF)] 9 = some (0x00008000, 0x00400004) := by decide
/-- V3. -/
theorem test_ori : regAndPc 0x35098001 [(8, 0x12340000)] 9 = some (0x12348001, 0x00400004) := by decide
/-- V3. -/
theorem test_lui : regAndPc 0x3c098001 [] 9 = some (0x80010000, 0x00400004) := by decide
/-- V5, from BASE: the link is pc + 4. -/
theorem test_jal : regAndPc 0x0c100004 [] 31 = some (0x00400004, 0x00400010) := by decide
/-- V5: neither checked nor masked. -/
theorem test_jr : regAndPc 0x01200008 [(9, 0x00400002)] 9 = some (0x00400002, 0x00400002) := by decide
/-- V5: no link. -/
theorem test_j : regAndPc 0x08000000 [] 31 = some (0, 0x00000000) := by decide
/-- V5. -/
theorem test_beq_taken : regAndPc 0x11090003 [(8, 5), (9, 5)] 8 = some (5, 0x00400010) := by decide
/-- V5. -/
theorem test_beq_not_taken : regAndPc 0x11090003 [(8, 5), (9, 6)] 8 = some (5, 0x00400004) := by decide
/-- V5. -/
theorem test_bne_taken :
    after (step (placed 0x00400008 0x1509FFFE [(8, 1), (9, 2)])) State.pc = some 0x00400004 := by decide
/-- V5. -/
theorem test_bne_not_taken :
    after (step (placed 0x00400008 0x1509FFFE [(8, 0x80000000), (9, 0x80000000)])) State.pc = some 0x0040000C := by
  decide

/-- The state of W3 before its store. -/
def w3 : State := start [(2, 42), (8, 0x00401000)]

/-- The state of W3 after its store. -/
def w3Stored : State := execOf (.sw 8 2 0) w3

/-- W3. -/
theorem test_sw :
    w3Stored.wordAt 0x00401000 = 42 ∧ w3Stored.pc = 0x00400004 ∧ w3Stored.wordAt 0x00401004 = 0 := by decide
/-- V4. -/
theorem test_sw_last_word :
    after (exec (.sw 29 9 0xFFFC) (start [(9, 7)])) (fun t => t.dmem 1023) = some 7 := by decide
/-- W3. -/
theorem test_lw :
    after (exec (.lw 8 3 0) w3Stored) (fun t => (t.readReg 3, t.pc)) = some (42, 0x00400008) := by decide
/-- V4: the old base is used. -/
theorem test_lw_old_base :
    after (exec (.lw 5 5 0) (execOf (.sw 5 9 0) (start [(5, 0x00401000), (9, 0x11)]))) (fun t => t.readReg 5) = some 0x11 := by
  decide
/-- W2. -/
theorem test_retire_w2 : after (step (placed 0x00400000 0x01095021 [(8, 5), (9, 3)])) State.trace =
      some [.retired ⟨0x00400000, 0x01095021, .r 8 9 10 0 0x21, some (10, 8), none, 0x00400004⟩] := by decide
/-- W3. -/
theorem test_retire_w3 : after (exec (.sw 8 2 0) w3) State.trace =
      some [.retired ⟨0x00400000, 0xAD020000, .i 43 8 2 0, none, some (0x00401000, 42), 0x00400004⟩] := by decide

/-! ### Faults, reset, load -/

/-- W1. -/
theorem test_w1 : after (step (placed 0x00400000 0x00400009 [])) (fun t => (t.status, t.pc, t.regs)) =
      some (.faulted (.unsupportedFunct 0x00400000 0x00400009), 0x00400000, State.reset.regs) := by decide
/-- W1. -/
theorem test_unsupported_opcode : after (step (placed 0x00400000 0x20000000 [])) State.status =
      some (.faulted (.unsupportedOpcode 0x00400000 0x20000000)) := by decide
/-- V4. -/
theorem test_memory_fault_below : after (exec (.lw 8 9 0xFFFC) (start [(8, 0x00401000)])) State.status =
      some (.faulted (.memoryFault 0x00400000 0x00400FFC)) := by decide
/-- V4. -/
theorem test_memory_fault_end : after (exec (.lw 29 9 0) (start [])) State.status =
      some (.faulted (.memoryFault 0x00400000 0x00402000)) := by decide
/-- V4. -/
theorem test_memory_fault_misaligned : after (exec (.sw 8 9 2) (start [(8, 0x00401000)])) State.status =
      some (.faulted (.memoryFault 0x00400000 0x00401002)) := by decide
/-- V4. -/
theorem test_memory_fault_wrapped : after (exec (.lw 8 9 8) (start [(8, 0xFFFFFFFC)])) State.status =
      some (.faulted (.memoryFault 0x00400000 0x00000004)) := by decide
/-- V6. -/
theorem test_fetch_faults : (stepOf (placed 0x00401000 0 [])).status = .faulted (.fetchFault 0x00401000) ∧
      (stepOf (placed 0x003FFFFC 0 [])).status = .faulted (.fetchFault 0x003FFFFC) ∧
      (stepOf (placed 0x00400002 0 [])).status = .faulted (.fetchFault 0x00400002) := by decide
/-- V6. -/
theorem test_no_step_after_fault : stepOf (stepOf (placed 0x00400002 0 [])) = stepOf (placed 0x00400002 0 []) := by decide
/-- V6. -/
theorem test_load_1025 (ws : List Word) (h : ws.length = 1025) :
    (load Config.reference ws).status = .faulted (.programTooLarge 1025) := by
  unfold load
  rw [if_neg (by rw [h]; decide), h]
/-- V6. -/
theorem test_load_1024 (ws : List Word) (h : ws.length = 1024) : (load Config.reference ws).status = .running := by
  unfold load
  rw [if_pos (by rw [h]; decide)]
  rfl
/-- P2, first instruction. -/
theorem test_step_after_reset :
    after (step (State.reset.withFetchWord 32 0x24080005)) (fun t => (t.readReg 8, t.pc)) = some (5, 0x00400004) := by
  decide
/-- P5 with R0_HARDWIRED = true. -/
theorem test_p5_hardwired : after (exec (.addiu 0 0 5) (zeroed State.reset)) (fun t => (t.readReg 0, t.regs)) =
      some (0, State.reset.regs) := by decide
/-- P5 with R0_HARDWIRED = false. -/
theorem test_p5_plain : after (exec (.addiu 0 0 5) State.reset) (fun t => t.readReg 0) = some 5 := by decide

/-! ### Witnesses: states and operands that meet the statements' hypotheses, clause by clause -/

/-- Every instruction answers a next state at every state. -/
theorem exec_execOf (i : Instr) (s : State) : exec i s = .next (execOf i s) := by
  have h := exec_eq i s
  unfold execOf
  cases he : effectOf i s <;> simp only [he] at h <;> rw [h] <;> rfl

/-- A step of a machine with a well-formed configuration answers a next state. -/
theorem step_stepOf {s : State} (hwf : s.cfg.wf = true) : step s = .next (stepOf s) := by
  unfold stepOf
  rcases step_cases s with ⟨h, _⟩ | ⟨_, _, h⟩ | ⟨_, _, _, h⟩ | ⟨_, _, _, _, _, h⟩ | ⟨_, _, _, _, _, _, _, h⟩ |
    ⟨_, _, _, _, _, _, _, h⟩
  · rw [hwf] at h; cases h
  all_goals rw [h]; rfl

theorem witness_EncodeAfterDecode : decodeWord 0x03E0F808 = .ok (.jr 31 0 31 0) := by decide

/-- `ea` is the effective address of R190. -/
abbrev IsEa (s : State) (rs : RegIdx) (imm16 : BitVec 16) (ea : Word) : Prop :=
  (ea.toNat : Int) = ((s.readReg rs).toNat + imm16.toInt : Int) % 2 ^ 32

/-- `ea` passes the data check of R53. -/
abbrev InData (c : Config) (ea : Word) : Prop := ea.toNat % 4 = 0 ∧ c.dataBase ≤ ea.toNat ∧ ea.toNat < c.dataEnd

/-- Both comparisons of `slt`, at the ends of the signed range and at equality. -/
theorem witness_SetLessThanIsSigned :
    let s := start [(8, 0x80000000), (9, 0x7FFFFFFF)]
    (s.readReg 8).toInt < (s.readReg 9).toInt ∧ (s.readReg 8).toInt ≤ (s.readReg 9).toInt ∧
      (s.readReg 8).toInt ≤ (s.readReg 8).toInt := by decide

/-- The first and the last data word complete; a misaligned address, the one below the segment, the one past its end
and a wrapped one fault. -/
theorem witness_LoadWordReadsOrFaults :
    let s := start [(8, 0x00401000), (9, 0xFFFFFFFC)]
    (IsEa s 8 0 0x00401000 ∧ InData s.cfg 0x00401000) ∧ (IsEa s 29 0xFFFC 0x00401FFC ∧ InData s.cfg 0x00401FFC) ∧
    (IsEa s 8 2 0x00401002 ∧ (0x00401002 : Word).toNat % 4 ≠ 0) ∧
    (IsEa s 8 0xFFFC 0x00400FFC ∧ (0x00400FFC : Word).toNat < s.cfg.dataBase) ∧
    (IsEa s 29 0 0x00402000 ∧ s.cfg.dataEnd ≤ (0x00402000 : Word).toNat) ∧
    (IsEa s 9 8 0x00000004 ∧ (0x00000004 : Word).toNat < s.cfg.dataBase) := by decide

theorem witness_StoreWordWritesOrFaults :
    let s := start [(8, 0x00401000), (9, 0xFFFFFFFC)]
    Memory.wf s.mem ∧
    (effectiveAddress s 8 0 = 0x00401000 ∧ InData s.cfg 0x00401000) ∧
    (effectiveAddress s 29 0xFFFC = 0x00401FFC ∧ InData s.cfg 0x00401FFC) ∧
    (effectiveAddress s 8 2 = 0x00401002 ∧ (0x00401002 : Word).toNat % 4 ≠ 0) ∧
    (effectiveAddress s 8 0xFFFC = 0x00400FFC ∧ (0x00400FFC : Word).toNat < s.cfg.dataBase) ∧
    (effectiveAddress s 29 0 = 0x00402000 ∧ s.cfg.dataEnd ≤ (0x00402000 : Word).toNat) ∧
    (effectiveAddress s 9 8 = 0x00000004 ∧ (0x00000004 : Word).toNat < s.cfg.dataBase) := by decide

/-- Both ends of both segments, and the addresses just outside them. -/
theorem witness_AddressChecksNameWholeWords :
    Config.reference.wf = true ∧
    translateData Config.reference 0x00401000 = some 0 ∧ translateData Config.reference 0x00401FFC = some 1023 ∧
    translateData Config.reference 0x00402000 = none ∧ translateData Config.reference 0x00400FFC = none ∧
    translateData Config.reference 0x00401002 = none ∧
    translateFetch Config.reference 0x00400000 = some 0 ∧ translateFetch Config.reference 0x00400FFC = some 1023 ∧
    translateFetch Config.reference 0x00401000 = none ∧ translateFetch Config.reference 0x003FFFFC = none ∧
    accessible Config.reference 0x00401FFC = true ∧ accessible Config.reference 0x00402000 = false ∧
    fetchable Config.reference 0x00400FFC = true ∧ fetchable Config.reference 0x00401000 = false := by decide

theorem witness_StoreThenLoadReturnsValue :
    Memory.wf w3.mem ∧ exec (.sw 8 2 0) w3 = .next w3Stored ∧ accessible w3.cfg (effectiveAddress w3 8 0) = true ∧
      effectiveAddress w3Stored 29 0xF000 = effectiveAddress w3 8 0 :=
  ⟨by decide, exec_execOf _ _, by decide, by decide⟩

/-- The same with a hardwired register 0 as the load's destination. -/
theorem witness_StoreThenLoadReturnsValue_hardwired :
    let s := zeroed w3
    Memory.wf s.mem ∧ exec (.sw 8 2 0) s = .next (execOf (.sw 8 2 0) s) ∧
      accessible s.cfg (effectiveAddress s 8 0) = true ∧
      effectiveAddress (execOf (.sw 8 2 0) s) 8 0 = effectiveAddress s 8 0 ∧ s.cfg.r0Hardwired = true :=
  ⟨by decide, exec_execOf _ _, by decide, by decide, by decide⟩

theorem witness_LoadThenStoreLeavesMemory :
    let t := execOf (.lw 8 3 0) w3Stored
    Memory.wf w3Stored.mem ∧ exec (.lw 8 3 0) w3Stored = .next t ∧
      accessible w3Stored.cfg (effectiveAddress w3Stored 8 0) = true ∧
      effectiveAddress t 8 0 = effectiveAddress w3Stored 8 0 ∧ ¬(w3Stored.cfg.r0Hardwired = true ∧ (3 : RegIdx) = 0) :=
  ⟨by decide, exec_execOf _ _, by decide, by decide, by decide⟩

/-- The second clause: the word is loaded into a hardwired register 0. -/
theorem witness_LoadThenStoreLeavesMemory_hardwired :
    let s := zeroed w3Stored
    let t := execOf (.lw 8 0 0) s
    Memory.wf s.mem ∧ exec (.lw 8 0 0) s = .next t ∧ accessible s.cfg (effectiveAddress s 8 0) = true ∧
      effectiveAddress t 8 0 = effectiveAddress s 8 0 ∧ s.cfg.r0Hardwired = true :=
  ⟨by decide, exec_execOf _ _, by decide, by decide, by decide⟩

/-- Targets at BASE, at both ends of the range, and around the end of the address space. -/
theorem witness_BranchesCompareRegisters :
    let target (pc : Word) (imm16 : BitVec 16) (x : Word) : Prop :=
      (x.toNat : Int) = (pc.toNat + 4 + imm16.toInt * 4 : Int) % 2 ^ 32
    target 0x00400000 3 0x00400010 ∧ target 0x00400000 0x8000 0x003E0004 ∧ target 0x00400000 0x7FFF 0x00420000 ∧
      target 0xFFFFFFFC 0 0 ∧ target 0 0x8000 0xFFFE0004 := by decide

/-- One instruction for each arc. -/
theorem witness_PcTakesTheArcOfTheInstruction :
    (instrArc (.addu 8 9 10 0) w3 = .seq ∧ exec (.addu 8 9 10 0) w3 = .next (execOf (.addu 8 9 10 0) w3)) ∧
    (instrArc (.beq 4 5 3) w3 = .branch ∧ exec (.beq 4 5 3) w3 = .next (execOf (.beq 4 5 3) w3)) ∧
    (instrArc (.bne 2 8 3) w3 = .branch ∧ exec (.bne 2 8 3) w3 = .next (execOf (.bne 2 8 3) w3)) ∧
    (instrArc (.jal 4) w3 = .jump ∧ exec (.jal 4) w3 = .next (execOf (.jal 4) w3)) ∧
    (instrArc (.jr 8 0 0 0) w3 = .reg ∧ exec (.jr 8 0 0 0) w3 = .next (execOf (.jr 8 0 0 0) w3)) :=
  ⟨⟨by decide, exec_execOf _ _⟩, ⟨by decide, exec_execOf _ _⟩, ⟨by decide, exec_execOf _ _⟩, ⟨by decide, exec_execOf _ _⟩,
    ⟨by decide, exec_execOf _ _⟩⟩

theorem witness_OnlyJumpRegisterMisalignsPc :
    exec (.bne 2 8 3) w3 = .next (execOf (.bne 2 8 3) w3) ∧ isJumpRegister (.bne 2 8 3) = false ∧
      w3.pc.toNat % 4 = 0 :=
  ⟨exec_execOf _ _, by decide, by decide⟩

theorem witness_InstructionsWriteOnlyTheirDestination :
    exec (.addu 8 9 10 0) w3 = .next (execOf (.addu 8 9 10 0) w3) ∧ writesRegister (.addu 8 9 10 0) ≠ some 11 ∧
      isStoreInstr (.addu 8 9 10 0) = false :=
  ⟨exec_execOf _ _, by decide, by decide⟩

theorem witness_RegisterZeroFollowsConfiguration :
    (zeroed w3).cfg.r0Hardwired = true ∧ ¬((zeroed w3).cfg.r0Hardwired = true ∧ (1 : RegIdx) = 0) ∧
      ¬(w3.cfg.r0Hardwired = true ∧ (0 : RegIdx) = 0) := by decide

/-- A store as the first instruction of a program, and the last word of the segment. -/
theorem witness_StepKeepsInstructionSegment :
    let s := placed 0x00400000 0xAD020000 [(2, 42), (8, 0x00401000)]
    Memory.wf s.mem ∧ step s = .next (stepOf s) ∧ 1023 < s.cfg.imemWords ∧ (stepOf s).dmem 0 = 42 :=
  ⟨by decide, step_stepOf (by decide), by decide, by decide⟩

/-- A register write, a suppressed one, and a store. -/
theorem witness_RetireRecordTellsTheChanges :
    (Memory.wf w3.mem ∧ exec (.addu 8 2 10 0) w3 = .next (execOf (.addu 8 2 10 0) w3) ∧
      (execOf (.addu 8 2 10 0) w3).status = w3.status ∧ w3.status = .running) ∧
    (Memory.wf (zeroed w3).mem ∧ exec (.addiu 0 0 5) (zeroed w3) = .next (execOf (.addiu 0 0 5) (zeroed w3)) ∧
      (execOf (.addiu 0 0 5) (zeroed w3)).status = (zeroed w3).status ∧ (zeroed w3).status = .running) ∧
    (exec (.sw 8 2 0) w3 = .next w3Stored ∧ w3Stored.status = w3.status) :=
  ⟨⟨by decide, exec_execOf _ _, by decide, by decide⟩, ⟨by decide, exec_execOf _ _, by decide, by decide⟩,
    exec_execOf _ _, by decide⟩

/-- The first and the last word of the instruction segment. -/
theorem witness_StepRunsTheDecodedInstruction :
    let s := placed 0x00400000 0x01095021 []
    let t := placed 0x00400FFC 0x1509FFFE []
    (s.cfg.wf = true ∧ s.status = .running ∧ fetchable s.cfg s.pc = true ∧
      decodeWord (s.wordAt s.pc.toNat) = .ok (.addu 8 9 10 0)) ∧
    (t.cfg.wf = true ∧ t.status = .running ∧ fetchable t.cfg t.pc = true ∧
      decodeWord (t.wordAt t.pc.toNat) = .ok (.bne 8 9 0xFFFE)) := by decide

theorem witness_StepIsTheDatapathStep : w3.cfg.wf = true ∧ w3.status = .running := by decide

theorem witness_StepCompletesOrFaults : w3Stored.cfg.wf = true ∧ w3Stored.status = .running := by decide

theorem witness_BadPcTakesFetchFault :
    let s (pc : Word) := { start [] with pc := pc }
    (s 0x00400002).cfg.wf = true ∧ (s 0x00400002).status = .running ∧ (s 0x00400002).pc.toNat % 4 ≠ 0 ∧
      (s 0x003FFFFC).pc.toNat < (s 0x003FFFFC).cfg.base ∧ (s 0x00401000).cfg.dataBase ≤ (s 0x00401000).pc.toNat := by
  decide

theorem witness_UnsupportedWordsTakeTheirFault :
    let s := placed 0x00400000 0xFC000000 []
    let t := placed 0x00400000 0x00400009 []
    (s.cfg.wf = true ∧ s.status = .running ∧ fetch s = some 0xFC000000 ∧
      ((0xFC000000 : Word).extractLsb 31 26).toNat ∉ [0, 2, 3, 4, 5, 9, 12, 13, 15, 35, 43]) ∧
    (t.cfg.wf = true ∧ t.status = .running ∧ fetch t = some 0x00400009 ∧
      ((0x00400009 : Word).extractLsb 31 26).toNat = 0 ∧
      ((0x00400009 : Word).extractLsb 5 0).toNat ∉ [0x00, 0x02, 0x08, 0x21, 0x23, 0x24, 0x25, 0x2A]) := by decide

/-- One run into each fault a step can take. -/
theorem witness_FaultsHaveTheirCause :
    let a := placed 0x00400000 0xFC000000 []
    let b := placed 0x00400000 0x00400009 []
    let c := placed 0x00400000 0xAD090002 [(8, 0x00401000)]
    let d := placed 0x00400002 0 []
    (a.status = .running ∧ step a = .next (stepOf a) ∧
      (stepOf a).status = .faulted (.unsupportedOpcode 0x00400000 0xFC000000)) ∧
    (b.status = .running ∧ step b = .next (stepOf b) ∧
      (stepOf b).status = .faulted (.unsupportedFunct 0x00400000 0x00400009)) ∧
    (c.status = .running ∧ step c = .next (stepOf c) ∧
      (stepOf c).status = .faulted (.memoryFault 0x00400000 0x00401002)) ∧
    (d.status = .running ∧ step d = .next (stepOf d) ∧ (stepOf d).status = .faulted (.fetchFault 0x00400002)) :=
  ⟨⟨rfl, step_stepOf (by decide), by decide⟩, ⟨rfl, step_stepOf (by decide), by decide⟩,
    ⟨rfl, step_stepOf (by decide), by decide⟩, ⟨rfl, step_stepOf (by decide), by decide⟩⟩

theorem witness_IllFormedConfigurationIsRefused :
    (State.resetWith { Config.reference with imemWords := 0 }).cfg.wf = false := by decide

/-- A program that fills the instruction segment, and one that is one word too long. -/
theorem witness_ResetAndLoadValues :
    (small .big).wf = true ∧ [(0x24080005 : Word)].length ≤ (small .big).imemWords ∧
      (small .big).imemWords < [(0x24080005 : Word), 0].length ∧ 0 < (small .big).imemWords ∧
      1 < (small .big).dmemWords := by decide

theorem witness_TooLargeProgramNeverSteps :
    (small .little).wf = true ∧ (small .little).imemWords < [(0 : Word), 0].length := by decide

theorem witness_TerminalStatesNeverChange :
    let s := haltRequest w3
    let t := stepOf (placed 0x00400002 0 [])
    (s.cfg.wf = true ∧ s.status ≠ .running ∧ s.status = .halted) ∧
    (t.cfg.wf = true ∧ t.status ≠ .running ∧ t.status = .faulted (.fetchFault 0x00400002)) := by decide

theorem witness_HaltRequestOnlyStops : w3.status = .running ∧ (haltRequest w3).status ≠ .running := by decide

theorem witness_OnlyTheHostHalts :
    NoHostHalt [.step] ∧ w3.status ≠ .halted ∧ serveAll [.step] w3 = .next (stepOf w3) := by
  refine ⟨by simp [NoHostHalt], by decide, ?_⟩
  simp only [serveAll, serve]
  rw [step_stepOf (s := w3) (by decide)]

theorem witness_LoadEstablishesInvariants : (small .little).wf = true := by decide

/-- The state of a machine that has loaded `addiu $8, $0, 5`. -/
def loadedOne : State := State.reset.withFetchWord 32 0x24080005

theorem witness_StepKeepsMachineInvariant : Inv loadedOne ∧ step loadedOne = .next (stepOf loadedOne) :=
  ⟨⟨by decide, by decide, by decide, by decide⟩, step_stepOf (by decide)⟩

/-- The machine after that instruction meets both invariants, and takes both requests. -/
theorem witness_HostRequestsKeepTraceInvariant :
    Inv (stepOf loadedOne) ∧ TraceInv (stepOf loadedOne) ∧
      serve .step (stepOf loadedOne) = .next (stepOf (stepOf loadedOne)) ∧
      serve .halt (stepOf loadedOne) = .next (haltRequest (stepOf loadedOne)) := by
  have htrace : (stepOf loadedOne).trace =
      [.retired ⟨0x00400000, 0x24080005, .i 9 0 8 5, some (8, 5), none, 0x00400004⟩] := by decide
  refine ⟨⟨by decide, by decide, by decide, by decide⟩, ⟨?_, ?_⟩, step_stepOf (by decide), rfl⟩
  · intro r hr
    rw [htrace, List.mem_singleton] at hr
    cases hr
    exact ⟨by decide, by decide, .addiu 0 8 5, by decide, by decide⟩
  · rw [htrace, show (stepOf loadedOne).status = .running by decide]
    exact ⟨by decide, rfl⟩

/-- A machine of one instruction word and two data words that holds `lw $9, 4($0)` and the word 0x11223344, its images
laid out in the given byte order. -/
def laidOut (order : ByteOrder) : State :=
  { State.resetWith (small order) with
    mem := Memory.writeWord order (Memory.writeWord order [] 0 0x8C090004) 4 0x11223344 }

theorem witness_ByteOrderIsNotObservable :
    Memory.wf (laidOut .little).mem ∧ Memory.wf (laidOut .big).mem ∧ SameWords (laidOut .little) (laidOut .big) ∧
      (laidOut .little).mem ≠ (laidOut .big).mem :=
  ⟨by decide, by decide, ⟨rfl, rfl, rfl, rfl, rfl, by decide⟩, by decide⟩

/-- Both ends of the range, and just outside them. -/
theorem witness_AssembledBranchReachesLabel :
    let inRange (pc : Word) (label : Nat) : Prop := label % 4 = 0 ∧
      -131072 ≤ (label : Int) - (pc.toNat + 4) ∧ (label : Int) - (pc.toNat + 4) ≤ 131068
    (0x00400000 : Word).toNat % 4 = 0 ∧ 0x00420000 < 2 ^ 32 ∧ inRange 0x00400000 0x003E0004 ∧
      inRange 0x00400000 0x00420000 ∧ ¬inRange 0x00400000 0x003E0000 ∧ ¬inRange 0x00400000 0x00420004 ∧
      ¬inRange 0x00400000 0x00400002 := by decide

theorem witness_MemoryFaultExactlyOnBadLoadOrStore :
    let s := start [(8, 0x00401000)]
    s.status = .running ∧ (0x00401002 : Word) = s.readReg 8 + BitVec.signExtend 32 (2 : BitVec 16) ∧
      (0x00401002 : Word).toNat % 4 ≠ 0 := by decide

/-- A misaligned target, one below BASE, and the sequential step past the last instruction word. -/
theorem witness_BadTargetFaultsAtTheNextStep :
    let s := start [(9, 0x00400002)]
    let r := { start [] with pc := 0x00400FFC }
    (s.cfg.wf = true ∧ s.status = .running ∧ exec (.jr 9 0 0 0) s = .next (execOf (.jr 9 0 0 0) s) ∧
      Retired s (execOf (.jr 9 0 0 0) s) ∧ (execOf (.jr 9 0 0 0) s).pc.toNat % 4 ≠ 0) ∧
    (exec (.j 0) s = .next (execOf (.j 0) s) ∧ Retired s (execOf (.j 0) s) ∧
      (execOf (.j 0) s).pc.toNat < s.cfg.base) ∧
    (r.cfg.wf = true ∧ r.status = .running ∧ exec (.sll 0 0 0 0) r = .next (execOf (.sll 0 0 0 0) r) ∧
      Retired r (execOf (.sll 0 0 0 0) r) ∧ r.cfg.dataBase ≤ (execOf (.sll 0 0 0 0) r).pc.toNat) :=
  ⟨⟨by decide, rfl, exec_execOf _ _, ⟨rfl, rfl, _, rfl⟩, by decide⟩,
    ⟨exec_execOf _ _, ⟨rfl, rfl, _, rfl⟩, by decide⟩,
    by decide, rfl, exec_execOf _ _, ⟨rfl, rfl, _, rfl⟩, by decide⟩

/-- Two register files that differ in registers `addu $10, $8, $9` does not read. -/
theorem witness_ResultDependsOnlyOnRegistersRead :
    let s := start [(8, 5), (9, 3)]
    let regs := (start [(8, 5), (9, 3), (10, 7), (31, 1)]).regs
    (∀ r ∈ readsRegisters (.addu 8 9 10 0), State.readReg { s with regs := regs } r = s.readReg r) ∧
      regs ≠ s.regs ∧ Retired s (execOf (.addu 8 9 10 0) s) ∧ writesRegister (.addu 8 9 10 0) = some 10 :=
  ⟨by decide, by decide, ⟨rfl, rfl, _, rfl⟩, rfl⟩

theorem witness_ResetZeroesMemory :
    (small .big).wf = true ∧ 1 < (small .big).dmemWords ∧ 0 < (small .big).imemWords ∧ ([] : List Word).length ≤ 0 := by
  decide

/-- A machine at its halt marker. -/
theorem witness_HaltMarkerLoops :
    let s := placed 0x00400010 0x1000FFFF []
    s.cfg.wf = true ∧ AtHaltMarker s 0x00400010 := ⟨by decide, by decide, by decide, by decide⟩

end Sys2Proof.Machine.Test
end

section
/-! PROOFS for spec/00_scope.md: the check on a configuration (R9), and what an ill-formed one is answered. -/

namespace Sys2Proof.Machine

theorem step_of_wf_eq_false {s : State} (hwf : s.cfg.wf = false) : step s = .refused .illFormedConfiguration := by
  simp [step, stepRequest, hwf]

theorem boot_of_wf_eq_false {c : Config} (hwf : c.wf = false) (ws : List Word) :
    boot c ws = .refused .illFormedConfiguration := by
  simp [boot, hwf]

/-- Settles O40: the check is R9's six conditions by `wf_iff`, with `DATA_END` written out; `step` and `boot` make it
before anything else. -/
theorem illFormedConfigurationIsRefused : Obligations.IllFormedConfigurationIsRefused := by
  refine ⟨fun c => ?conditions, fun s hwf => step_of_wf_eq_false hwf, fun c ws hwf => boot_of_wf_eq_false hwf ws⟩
  case conditions => rw [wf_iff, dataEnd_eq, Nat.lt_succ_iff]

end Sys2Proof.Machine
end

section
/-! PROOFS for spec/10_state.md: the register file, what an instruction reads and writes, and the state after reset and
load. -/

namespace Sys2Proof.Machine

/-! ### Register ports (R21) -/

/-- A write to a hardwired register 0 is lost. -/
theorem writeFile_of_hardwired {c : Config} {i : RegIdx} (h : hardwired c i = true) (regs : Vector Word 32) (v : Word) :
    writeFile c regs i v = regs := if_pos h

theorem readFile_of_hardwired {c : Config} {i : RegIdx} (h : hardwired c i = true) (regs : Vector Word 32) :
    readFile c regs i = 0 := if_pos h

theorem readFile_of_not_hardwired {c : Config} {i : RegIdx} (h : hardwired c i = false) (regs : Vector Word 32) :
    readFile c regs i = regs[i.toNat]'(i.isLt) := by
  simp [readFile, h]

/-- Settles O31: `hardwired` decides between the ports' two clauses, and `readFile_writeFile` gives the read after a
write. -/
theorem registerZeroFollowsConfiguration : Obligations.RegisterZeroFollowsConfiguration := by
  refine ⟨rfl, fun c regs i v => ⟨fun h => ?hardwired, fun h => ?plain⟩⟩
  case hardwired =>
    have hi := hardwired_eq_true.2 h
    exact ⟨writeFile_of_hardwired hi regs v, readFile_of_hardwired hi regs⟩
  case plain =>
    have hi := hardwired_eq_false.2 h
    refine ⟨readFile_of_not_hardwired hi regs, fun r => ?_⟩
    simp [readFile_writeFile, hi]

/-! ### What an instruction writes (R22, R66) -/

/-- The register of an effect is the one the table of R22 lists as written. -/
theorem effectOf_reg {i : Instr} {s : State} {e : Effect} (h : effectOf i s = .ok e) :
    e.reg.map Prod.fst = writesRegister i := by
  cases i with
  | lw rs rt imm | sw rs rt imm =>
    simp only [effectOf] at h
    split at h
    · cases h; rfl
    · cases h
  | _ => cases h; rfl

/-- Only a store has a data word to write. -/
theorem effectOf_store_eq_none {i : Instr} {s : State} {e : Effect} (h : effectOf i s = .ok e)
    (hi : isStoreInstr i = false) : e.store = none := by
  cases hs : e.store with
  | none => rfl
  | some p =>
    obtain ⟨rs, rt, imm, rfl, -⟩ := effectOf_store h hs
    cases hi

/-- A register that the effect does not name reads as before. -/
theorem readReg_commit_of_ne {e : Effect} {r : RegIdx} (h : e.reg.map Prod.fst ≠ some r) (i : Instr) (s : State) :
    (commit i e s).readReg r = s.readReg r := by
  rw [readReg_commit]
  cases hr : e.reg with
  | none => rfl
  | some p =>
    have hne : r ≠ p.1 := fun hp => h (by rw [hr, hp]; rfl)
    exact if_neg fun hp => hne hp.1

@[simp] theorem readReg_takeFault (f : Fault) (s : State) (r : RegIdx) : (takeFault f s).readReg r = s.readReg r := rfl

/-- Settles O29: an instruction ends in a fault taken, which keeps all three, or in the commit of its effect, whose
register is the one `writesRegister` names and whose store is none unless the instruction is a store. -/
theorem instructionsWriteOnlyTheirDestination : Obligations.InstructionsWriteOnlyTheirDestination := by
  intro i s t h
  rcases exec_next_cases h with ⟨e, he, rfl⟩ | ⟨f, -, rfl⟩
  · refine ⟨fun r hr => readReg_commit_of_ne (effectOf_reg he ▸ hr) i s, fun hi => ?_, rfl⟩
    rw [commit_mem, effectOf_store_eq_none he hi]
    rfl
  · exact ⟨fun r _ => readReg_takeFault f s r, fun _ => rfl, rfl⟩

/-! ### What an instruction reads (R22) -/

section
variable {i : Instr} {s t : State}

/-- The effect or fault of an instruction is a function of the registers it reads, the pc, memory and the
configuration. -/
theorem effectOf_congr (hcfg : t.cfg = s.cfg) (hpc : t.pc = s.pc) (hmem : t.mem = s.mem)
    (h : ∀ r ∈ readsRegisters i, t.readReg r = s.readReg r) : effectOf i t = effectOf i s := by
  cases i with
  | lw rs rt imm =>
    have hea : effectiveAddress t rs imm = effectiveAddress s rs imm := by
      simp [effectiveAddress, h rs (by simp [readsRegisters])]
    simp only [effectOf, hea, hcfg, hpc, hmem, sequentialPc, State.wordAt]
  | sw rs rt imm =>
    have hea : effectiveAddress t rs imm = effectiveAddress s rs imm := by
      simp [effectiveAddress, h rs (by simp [readsRegisters])]
    have hrt : t.readReg rt = s.readReg rt := h rt (by simp [readsRegisters])
    simp only [effectOf, hea, hrt, hcfg, hpc, sequentialPc]
  | beq rs rt imm | bne rs rt imm =>
    have hdiff : branchDifference t rs rt = branchDifference s rs rt := by
      simp [branchDifference, h rs (by simp [readsRegisters]), h rt (by simp [readsRegisters])]
    simp only [effectOf, hdiff, hpc, branchPc, sequentialPc]
  | _ => simp_all [readsRegisters, effectOf, sequentialPc]

/-- The register an effect names reads the same after the commit, whatever any register held before. -/
theorem readReg_commit_congr {e : Effect} {d : RegIdx} (hcfg : t.cfg = s.cfg) (h : e.reg.map Prod.fst = some d) :
    (commit i e t).readReg d = (commit i e s).readReg d := by
  cases hd : hardwired s.cfg d with
  | true => rw [readReg_hardwired (by simpa [hcfg] using hd), readReg_hardwired (by simpa using hd)]
  | false =>
    obtain ⟨⟨d, v⟩, hr, rfl⟩ := Option.map_eq_some_iff.1 h
    simp [readReg_commit, hr, hd, hcfg]

end

/-- A fault taken is not a completed step. -/
theorem not_retired_takeFault (f : Fault) (s : State) : ¬ Retired s (takeFault f s) := by
  rintro ⟨-, -, r, hr⟩
  cases hr

/-- Settles O30: both states have the same effect or the same fault by `effectOf_congr`, and the fields named are
functions of that and of what the states share. -/
theorem resultDependsOnlyOnRegistersRead : Obligations.ResultDependsOnlyOnRegistersRead := by
  intro i s regs h
  have hcongr : effectOf i { s with regs := regs } = effectOf i s := effectOf_congr rfl rfl rfl h
  cases he : effectOf i s with
  | error f =>
    refine ⟨_, _, exec_of_fault he, exec_of_fault (hcongr.trans he), rfl, rfl, rfl, rfl, fun hret => ?_⟩
    exact absurd hret (not_retired_takeFault f s)
  | ok e =>
    refine ⟨_, _, exec_of_effect he, exec_of_effect (hcongr.trans he), rfl, rfl, rfl, rfl, fun _ d hd => ?_⟩
    exact readReg_commit_congr rfl ((effectOf_reg he).trans hd)

/-! ### The words of a loaded program (R264, D18) -/

section
variable {m : List Host.Cell} {a b k : Nat} {order : ByteOrder}

/-- No word is placed below the first. -/
theorem Memory.readWord_writeWords_below (hm : Memory.wf m) (ws : List Word) (h : b + 4 ≤ a) :
    Memory.readWord order (Memory.writeWords order m a ws) b = Memory.readWord order m b := by
  induction ws generalizing m a with
  | nil => rfl
  | cons w ws ih =>
    rw [Memory.writeWords, ih (Memory.wf_writeWord hm) (by omega), Memory.readWord_writeWord_other hm (.inl h)]

/-- The word at index `k` from `a` is the one placed there, or past the last one what was there before. -/
theorem Memory.readWord_writeWords (hm : Memory.wf m) (ws : List Word) :
    Memory.readWord order (Memory.writeWords order m a ws) (a + 4 * k) =
      ws.getD k (Memory.readWord order m (a + 4 * k)) := by
  induction ws generalizing m a k with
  | nil => rfl
  | cons w ws ih =>
    have hw := Memory.wf_writeWord (order := order) (a := a) (x := w) hm
    cases k with
    | zero =>
      rw [Memory.writeWords, Memory.readWord_writeWords_below hw ws (by omega)]
      exact Memory.readWord_writeWord_same hm
    | succ k =>
      have ha : a + 4 * (k + 1) = a + 4 + 4 * k := by omega
      rw [Memory.writeWords, ha, ih hw, Memory.readWord_writeWord_other hm (by omega), List.getD_cons_succ]

/-- Every cell lies in the words placed or was there before. -/
theorem Memory.writeWords_mem {ws : List Word} {cell : Host.Cell} (h : cell ∈ Memory.writeWords order m a ws) :
    (a ≤ cell.1 ∧ cell.1 < a + 4 * ws.length) ∨ cell ∈ m := by
  induction ws generalizing m a with
  | nil => exact .inr h
  | cons w ws ih =>
    rw [List.length_cons]
    rcases ih h with hws | hw
    · exact .inl (by omega)
    · exact (Memory.writeWord_mem hw).imp_left fun hw => by omega

theorem Memory.readWord_nil : Memory.readWord order [] b = 0 := by
  change wordOfBytes order 0 0 0 0 = 0
  cases order <;> decide

end

/-! ### Reset and load (R35, R264, R265) -/

section
variable {c : Config} {ws : List Word}

theorem load_of_fits (h : ws.length ≤ c.imemWords) :
    load c ws = { State.resetWith c with mem := Memory.writeWords c.byteOrder [] c.base ws } := if_pos h

theorem load_of_tooLarge (h : c.imemWords < ws.length) :
    load c ws = { State.resetWith c with status := .faulted (.programTooLarge ws.length) } := if_neg (by omega)

@[simp] theorem load_cfg (c : Config) (ws : List Word) : (load c ws).cfg = c := by
  unfold load; split <;> rfl
@[simp] theorem load_regs (c : Config) (ws : List Word) : (load c ws).regs = (State.resetWith c).regs := by
  unfold load; split <;> rfl
@[simp] theorem load_pc (c : Config) (ws : List Word) : (load c ws).pc = BitVec.ofNat 32 c.base := by
  unfold load; split <;> rfl
@[simp] theorem load_trace (c : Config) (ws : List Word) : (load c ws).trace = [] := by
  unfold load; split <;> rfl

/-- The reset is the load of the empty program. -/
theorem load_nil (c : Config) : load c [] = State.resetWith c := load_of_fits (Nat.zero_le _)

theorem load_status_of_fits (h : ws.length ≤ c.imemWords) : (load c ws).status = .running := by
  rw [load_of_fits h]; rfl
theorem load_status_of_tooLarge (h : c.imemWords < ws.length) :
    (load c ws).status = .faulted (.programTooLarge ws.length) := by
  rw [load_of_tooLarge h]
theorem load_mem_of_fits (h : ws.length ≤ c.imemWords) :
    (load c ws).mem = Memory.writeWords c.byteOrder [] c.base ws := by
  rw [load_of_fits h]
theorem load_mem_of_tooLarge (h : c.imemWords < ws.length) : (load c ws).mem = [] := by
  rw [load_of_tooLarge h]; rfl

/-- The registers after reset, read one by one (R35, D5, D6). -/
theorem getElem_resetWith_regs {n : Nat} (hn : n < 32) :
    (State.resetWith c).regs[n] = if n = c.spIndex then c.spReset else 0 := by
  simp [Vector.getElem_setIfInBounds, eq_comm]

/-- A well-formed configuration presets no hardwired register, so that reset and port agree on register 0. -/
theorem load_readReg (hwf : c.wf = true) (ws : List Word) (r : RegIdx) :
    (load c ws).readReg r = if r.toNat = c.spIndex then c.spReset else 0 := by
  obtain ⟨-, -, -, -, -, hsp⟩ := wf_iff.1 hwf
  cases hr : hardwired c r with
  | true =>
    obtain ⟨h0, rfl⟩ := hardwired_eq_true.1 hr
    rw [readReg_hardwired (by simpa using hr), if_neg fun h => hsp ⟨h0, h.symm⟩]
  | false =>
    rw [State.readReg, load_cfg, load_regs, readFile_of_not_hardwired hr, getElem_resetWith_regs]

/-- BASE is an address, so the pc holds it exactly. -/
theorem load_pc_toNat (hwf : c.wf = true) (ws : List Word) : (load c ws).pc.toNat = c.base := by
  obtain ⟨-, himem, -, hend, -, -⟩ := wf_iff.1 hwf
  rw [dataEnd_eq] at hend
  rw [load_pc, BitVec.toNat_ofNat, Nat.mod_eq_of_lt (by omega)]

/-- A program that fits lies at BASE, with 0 in every word after it. -/
theorem load_imem_of_fits (h : ws.length ≤ c.imemWords) (k : Nat) : (load c ws).imem k = ws.getD k 0 := by
  rw [State.imem, State.wordAt, load_cfg, load_mem_of_fits h, Memory.readWord_writeWords Memory.wf_nil,
    Memory.readWord_nil]

theorem load_dmem (c : Config) (ws : List Word) (k : Nat) : (load c ws).dmem k = 0 := by
  rcases Nat.lt_or_ge c.imemWords ws.length with hlarge | hfits
  · rw [State.dmem, State.wordAt, load_mem_of_tooLarge hlarge, Memory.readWord_nil]
  · have himem : (load c ws).dmem k = (load c ws).imem (c.imemWords + k) := by
      rw [State.dmem, State.imem, load_cfg, dataBase_eq, Nat.mul_add, Nat.add_assoc]
    rw [himem, load_imem_of_fits hfits, List.getD_eq_default _ _ (by omega)]

/-- Settles O43: field by field, by the laws of `load`. -/
theorem resetAndLoadValues : Obligations.ResetAndLoadValues := fun c ws hwf =>
  ⟨load_readReg hwf ws, load_pc_toNat hwf ws, fun k _ => load_dmem c ws k,
    fun hfits => ⟨load_status_of_fits hfits, fun k _ => load_imem_of_fits hfits k⟩, load_status_of_tooLarge⟩

/-! ### The invariants after load (R9, R141) -/

theorem load_memory_wf (c : Config) (ws : List Word) : Memory.wf (load c ws).mem := by
  rcases Nat.lt_or_ge c.imemWords ws.length with hlarge | hfits
  · rw [load_mem_of_tooLarge hlarge]
    exact Memory.wf_nil
  · rw [load_mem_of_fits hfits]
    exact Memory.wf_writeWords Memory.wf_nil ws

/-- The loader writes the instruction segment only. -/
theorem load_mem_in_instruction_segment {cell : Host.Cell} (h : cell ∈ (load c ws).mem) :
    c.base ≤ cell.1 ∧ cell.1 < c.dataBase := by
  rcases Nat.lt_or_ge c.imemWords ws.length with hlarge | hfits
  · simp [load_mem_of_tooLarge hlarge] at h
  · rw [load_mem_of_fits hfits] at h
    rcases Memory.writeWords_mem h with hcell | hcell
    · rw [dataBase_eq]; omega
    · cases hcell

theorem load_inv (hwf : c.wf = true) (ws : List Word) : Inv (load c ws) where
  configWf := by rwa [load_cfg]
  memoryWf := load_memory_wf c ws
  inImage cell hcell := by
    obtain ⟨hbase, hdata⟩ := load_mem_in_instruction_segment hcell
    rw [load_cfg]
    exact ⟨hbase, Nat.lt_add_right _ hdata⟩
  zeroHolds h0 := by
    obtain ⟨-, -, -, -, -, hsp⟩ := wf_iff.1 hwf
    rw [load_cfg] at h0
    simp only [load_regs, getElem_resetWith_regs]
    exact if_neg fun h => hsp ⟨h0, h.symm⟩

/-- With no record emitted, the chain is empty where the program fits, and the other case is ProgramTooLarge. -/
theorem load_traceInv (hwf : c.wf = true) (ws : List Word) : TraceInv (load c ws) where
  faithful r hr := by simp at hr
  chain := by
    rcases Nat.lt_or_ge c.imemWords ws.length with hlarge | hfits
    · rw [load_status_of_tooLarge hlarge]
      exact .inl ⟨ws.length, rfl, load_trace c ws⟩
    · rw [load_status_of_fits hfits, load_cfg, load_trace]
      exact load_pc_toNat hwf ws

end

/-- Settles O49: `load_inv` and `load_traceInv`. -/
theorem loadEstablishesInvariants : Obligations.LoadEstablishesInvariants :=
  fun _ ws hwf => ⟨load_inv hwf ws, load_traceInv hwf ws⟩

/-- Settles O48: the reset is the load of the empty program at the reference configuration. -/
theorem resetMeetsInvariants : Obligations.ResetMeetsInvariants := by
  have hwf : Config.reference.wf = true := by decide
  have hload := loadEstablishesInvariants Config.reference [] hwf
  rwa [load_nil] at hload

end Sys2Proof.Machine
end

section
/-! PROOFS for spec/20_memory.md: the address checks, the memory invariant, and what no step can do: misalign the pc
but by `jr`, change the instruction segment, or tell one byte order from the other. -/

namespace Sys2Proof.Machine

/-! ### The word addresses of the two segments (R53, R54) -/

section
variable {c : Config}

/-- The aligned addresses of a segment of `n` words at an aligned start are those of its words. -/
theorem segment_iff_word {start n a : Nat} (hstart : start % 4 = 0) :
    a % 4 = 0 ∧ start ≤ a ∧ a < start + 4 * n ↔ ∃ k, k < n ∧ a = start + 4 * k := by
  constructor
  · rintro ⟨halign, hlo, hhi⟩
    exact ⟨(a - start) / 4, by omega, by omega⟩
  · rintro ⟨k, hk, rfl⟩
    omega

theorem accessible_iff_word (hwf : c.wf = true) {ea : Word} :
    accessible c ea = true ↔ ∃ k, k < c.dmemWords ∧ ea.toNat = c.dataBase + 4 * k := by
  obtain ⟨hbase, -⟩ := wf_iff.1 hwf
  rw [accessible_iff, dataEnd_eq, ← dataBase_eq]
  exact segment_iff_word (by rw [dataBase_eq]; omega)

theorem fetchable_iff_word (hwf : c.wf = true) {pc : Word} :
    fetchable c pc = true ↔ ∃ k, k < c.imemWords ∧ pc.toNat = c.base + 4 * k := by
  obtain ⟨hbase, -⟩ := wf_iff.1 hwf
  rw [fetchable_iff, dataBase_eq]
  exact segment_iff_word hbase

theorem translateData_eq_some (hwf : c.wf = true) {ea : Word} {k : Nat} :
    translateData c ea = some k ↔ k < c.dmemWords ∧ ea.toNat = c.dataBase + 4 * k := by
  cases h : accessible c ea with
  | false =>
    rw [translateData_of_not_accessible h]
    exact ⟨nofun, fun hk => absurd ((accessible_iff_word hwf).2 ⟨k, hk⟩) (by simp [h])⟩
  | true =>
    obtain ⟨j, hj, hea⟩ := (accessible_iff_word hwf).1 h
    rw [translateData_of_accessible h, Option.some_inj]
    omega

theorem translateFetch_eq_some (hwf : c.wf = true) {pc : Word} {k : Nat} :
    translateFetch c pc = some k ↔ k < c.imemWords ∧ pc.toNat = c.base + 4 * k := by
  cases h : fetchable c pc with
  | false =>
    rw [translateFetch_of_not_fetchable h]
    exact ⟨nofun, fun hk => absurd ((fetchable_iff_word hwf).2 ⟨k, hk⟩) (by simp [h])⟩
  | true =>
    obtain ⟨j, hj, hpc⟩ := (fetchable_iff_word hwf).1 h
    rw [translateFetch_of_fetchable h, Option.some_inj]
    omega

/-- All four bytes of a data word lie in the data segment. -/
theorem accessible_bounds (hwf : c.wf = true) {ea : Word} (h : accessible c ea = true) :
    c.dataBase ≤ ea.toNat ∧ ea.toNat + 4 ≤ c.dataEnd := by
  obtain ⟨k, hk, hea⟩ := (accessible_iff_word hwf).1 h
  rw [dataEnd_eq, ← dataBase_eq]
  omega

/-- All four bytes of an instruction word lie in the instruction segment. -/
theorem fetchable_bounds (hwf : c.wf = true) {pc : Word} (h : fetchable c pc = true) :
    c.base ≤ pc.toNat ∧ pc.toNat + 4 ≤ c.dataBase := by
  obtain ⟨k, hk, hpc⟩ := (fetchable_iff_word hwf).1 h
  rw [dataBase_eq]
  omega

end

/-- Settles O19: in each clause the word index is the distance from the segment's start, divided by 4. -/
theorem addressChecksNameWholeWords : Obligations.AddressChecksNameWholeWords := fun _ hwf =>
  ⟨fun _ => accessible_iff_word hwf, fun _ _ => translateData_eq_some hwf, fun _ => fetchable_iff_word hwf,
    fun _ _ => translateFetch_eq_some hwf, fun _ => accessible_bounds hwf, fun _ => fetchable_bounds hwf⟩

/-! ### The alignment of the pc (R56, R216) -/

theorem toNat_jumpTarget (target26 : BitVec 26) : (jumpTarget target26).toNat = 4 * target26.toNat := by
  rw [jumpTarget, BitVec.zeroExtend, BitVec.toNat_setWidth_of_le (by decide), BitVec.toNat_append]
  simp [Nat.shiftLeft_eq, Nat.mul_comm]

theorem branchTarget_aligned {pc : Word} (h : pc.toNat % 4 = 0) (imm16 : BitVec 16) :
    (branchTarget pc imm16).toNat % 4 = 0 := by
  have hoffset : (sext32 imm16 <<< 2).toNat % 4 = 0 := by
    rw [BitVec.toNat_shiftLeft, Nat.shiftLeft_eq]
    omega
  simp only [branchTarget, Nat.cast_ofNat]
  bv_omega

theorem sequentialPc_aligned {s : State} (h : s.pc.toNat % 4 = 0) : (sequentialPc s).toNat % 4 = 0 := by
  unfold sequentialPc
  bv_omega

theorem branchPc_aligned {s : State} {target : Word} (h : s.pc.toNat % 4 = 0) (htarget : target.toNat % 4 = 0)
    (taken : Bool) : (branchPc s taken target).toNat % 4 = 0 := by
  cases taken with
  | true => exact htarget
  | false => exact sequentialPc_aligned h

theorem effectOf_nextPc_aligned {i : Instr} {s : State} {e : Effect} (he : effectOf i s = .ok e)
    (hi : isJumpRegister i = false) (h : s.pc.toNat % 4 = 0) : e.nextPc.toNat % 4 = 0 := by
  cases i with
  | jr rs rt rd shamt => cases hi
  | j target26 | jal target26 => cases he; simp [toNat_jumpTarget]
  | beq rs rt imm | bne rs rt imm => cases he; exact branchPc_aligned h (branchTarget_aligned h imm) _
  | lw rs rt imm | sw rs rt imm =>
    simp only [effectOf] at he
    split at he
    · cases he; exact sequentialPc_aligned h
    · cases he
  | _ => cases he; exact sequentialPc_aligned h

/-- Settles O28: a fault keeps the pc, and an effect sets an aligned one by `effectOf_nextPc_aligned`. -/
theorem onlyJumpRegisterMisalignsPc : Obligations.OnlyJumpRegisterMisalignsPc := by
  intro i s t hexec hi h
  rcases exec_next_cases hexec with ⟨e, he, rfl⟩ | ⟨f, -, rfl⟩
  · exact effectOf_nextPc_aligned he hi h
  · exact h

/-! ### What a step does to memory (R50, R64, R66) -/

/-- A step that answers a next state leaves the machine as it is, takes a fault, or commits the effect of an
instruction. -/
theorem step_next_cases {s t : State} (h : step s = .next t) :
    t = s ∨ (∃ f, t = takeFault f s) ∨ (∃ i e, effectOf i s = .ok e ∧ t = commit i e s) := by
  rcases step_cases s with ⟨-, hs⟩ | ⟨-, -, hs⟩ | ⟨-, -, -, hs⟩ | ⟨e, -, -, -, -, hs⟩ | ⟨i, f, -, -, -, -, -, hs⟩ |
    ⟨i, e, -, -, -, -, he, hs⟩ <;> cases hs.symm.trans h
  · exact .inl rfl
  · exact .inr (.inl ⟨_, rfl⟩)
  · exact .inr (.inl ⟨_, rfl⟩)
  · exact .inr (.inl ⟨_, rfl⟩)
  · exact .inr (.inr ⟨i, e, he, rfl⟩)

/-- A store passes the data check, whatever instruction it came from. -/
theorem effectOf_store_accessible {i : Instr} {s : State} {e : Effect} {a v : Word} (he : effectOf i s = .ok e)
    (hs : e.store = some (a, v)) : accessible s.cfg a = true := by
  obtain ⟨rs, rt, imm, -, -, -, ha⟩ := effectOf_store he hs
  exact ha

/-- A word below the data segment is out of every store's reach. -/
theorem commit_wordAt_below_data {i : Instr} {s : State} {e : Effect} {b : Nat} (hm : Memory.wf s.mem)
    (he : effectOf i s = .ok e) (hb : b + 4 ≤ s.cfg.dataBase) : (commit i e s).wordAt b = s.wordAt b := by
  rw [State.wordAt, commit_cfg, commit_mem]
  cases hs : e.store with
  | none => rfl
  | some p =>
    obtain ⟨-, hdata, -⟩ := accessible_iff.1 (effectOf_store_accessible he hs)
    exact Memory.readWord_writeWord_other hm (.inl (hb.trans hdata))

/-- Settles O32: only a commit touches memory, and no store reaches below the data segment. -/
theorem stepKeepsInstructionSegment : Obligations.StepKeepsInstructionSegment := by
  intro s t hm h k hk
  rcases step_next_cases h with rfl | ⟨f, rfl⟩ | ⟨i, e, he, rfl⟩
  · rfl
  · rfl
  · have hk4 : s.cfg.base + 4 * k + 4 ≤ s.cfg.dataBase := by rw [dataBase_eq]; omega
    exact commit_wordAt_below_data hm he hk4

/-! ### The machine invariant -/

theorem takeFault_inv {s : State} (h : Inv s) (f : Fault) : Inv (takeFault f s) :=
  ⟨h.configWf, h.memoryWf, h.inImage, h.zeroHolds⟩

/-- Every cell after a store lies in the stored word or was there before. -/
theorem commitStore_mem_in_image {c : Config} {m : List Host.Cell} {store : Option (Word × Word)} (hwf : c.wf = true)
    (hstore : ∀ a v, store = some (a, v) → accessible c a = true)
    (hm : ∀ cell ∈ m, c.base ≤ cell.1 ∧ cell.1 < c.dataEnd) :
    ∀ cell ∈ commitStore c m store, c.base ≤ cell.1 ∧ cell.1 < c.dataEnd := by
  cases store with
  | none => exact hm
  | some p =>
    intro cell hcell
    obtain ⟨hlo, hhi⟩ := accessible_bounds hwf (hstore p.1 p.2 rfl)
    rcases Memory.writeWord_mem hcell with hin | hold
    · rw [dataBase_eq] at hlo
      omega
    · exact hm cell hold

/-- A hardwired register 0 is never written, so the file keeps what it holds there. -/
theorem commitRegs_zero {c : Config} (h0 : c.r0Hardwired = true) (regs : Vector Word 32)
    (reg : Option (RegIdx × Word)) : (commitRegs c regs reg)[0] = regs[0] := by
  cases reg with
  | none => rfl
  | some p =>
    obtain ⟨d, v⟩ := p
    change (writeFile c regs d v)[0] = regs[0]
    cases hd : hardwired c d with
    | true => rw [writeFile_of_hardwired hd]
    | false =>
      have hne : d.toNat ≠ 0 := fun hz => hardwired_eq_false.1 hd ⟨h0, BitVec.eq_of_toNat_eq hz⟩
      simp [writeFile, hd, Vector.getElem_set_ne, hne]

theorem commit_inv {i : Instr} {s : State} {e : Effect} (h : Inv s) (he : effectOf i s = .ok e) :
    Inv (commit i e s) where
  configWf := h.configWf
  memoryWf := wf_commitStore h.memoryWf e.store
  inImage := commitStore_mem_in_image h.configWf (fun _ _ hs => effectOf_store_accessible he hs) h.inImage
  zeroHolds h0 := (commitRegs_zero h0 s.regs e.reg).trans (h.zeroHolds h0)

/-- Settles O50: by the three ways a step can go, a fault changing no field the invariant speaks of. -/
theorem stepKeepsMachineInvariant : Obligations.StepKeepsMachineInvariant := by
  intro s t hinv h
  rcases step_next_cases h with rfl | ⟨f, rfl⟩ | ⟨i, e, he, rfl⟩
  · exact hinv
  · exact takeFault_inv hinv f
  · exact commit_inv hinv he

/-! ### Byte order (R58, D10): what two states with the same words share -/

section
variable {s t : State}

theorem SameWords.wf_eq (h : SameWords s t) : t.cfg.wf = s.cfg.wf := by rw [h.cfg]; rfl

theorem SameWords.fetchable_eq (h : SameWords s t) (pc : Word) : fetchable t.cfg pc = fetchable s.cfg pc := by
  rw [h.cfg]; rfl

theorem SameWords.accessible_eq (h : SameWords s t) (ea : Word) : accessible t.cfg ea = accessible s.cfg ea := by
  rw [h.cfg]; rfl

theorem SameWords.readReg_eq (h : SameWords s t) (r : RegIdx) : t.readReg r = s.readReg r := by
  rw [State.readReg, h.cfg, h.regs]; rfl

theorem SameWords.commitRegs_eq (h : SameWords s t) (reg : Option (RegIdx × Word)) :
    commitRegs t.cfg t.regs reg = commitRegs s.cfg s.regs reg := by
  rw [h.cfg, h.regs]; rfl

theorem SameWords.retireRecord_eq (h : SameWords s t) (i : Instr) (e : Effect) :
    retireRecord i e t = retireRecord i e s := by
  rw [retireRecord, h.cfg, h.pc]; rfl

theorem SameWords.fetched_word_eq (h : SameWords s t) (hwf : s.cfg.wf = true) {pc : Word}
    (hpc : fetchable s.cfg pc = true) : t.wordAt pc.toNat = s.wordAt pc.toNat := by
  obtain ⟨k, hk, haddr⟩ := (fetchable_iff_word hwf).1 hpc
  rw [haddr]
  exact h.words k (by omega)

/-- A data word in the numbering of the whole image: `DMEM[k]` is the word at index `IMEM_WORDS + k`. -/
theorem accessible_image_word {c : Config} (hwf : c.wf = true) {ea : Word} (h : accessible c ea = true) :
    ∃ k, k < c.imemWords + c.dmemWords ∧ ea.toNat = c.base + 4 * k := by
  obtain ⟨k, hk, hea⟩ := (accessible_iff_word hwf).1 h
  exact ⟨c.imemWords + k, by omega, by rw [hea, dataBase_eq]; omega⟩

theorem SameWords.data_word_eq (h : SameWords s t) (hwf : s.cfg.wf = true) {ea : Word}
    (hea : accessible s.cfg ea = true) : t.wordAt ea.toNat = s.wordAt ea.toNat := by
  obtain ⟨k, hk, haddr⟩ := accessible_image_word hwf hea
  rw [haddr]
  exact h.words k hk

theorem SameWords.fetch_eq (h : SameWords s t) (hwf : s.cfg.wf = true) : fetch t = fetch s := by
  cases hpc : fetchable s.cfg s.pc with
  | false => rw [fetch_eq_none.2 hpc, fetch_eq_none, h.pc, h.fetchable_eq, hpc]
  | true =>
    rw [fetch_eq_some.2 ⟨hpc, rfl⟩, fetch_eq_some, h.pc, h.fetchable_eq]
    exact ⟨hpc, h.fetched_word_eq hwf hpc⟩

theorem SameWords.sequentialPc_eq (h : SameWords s t) : sequentialPc t = sequentialPc s := by
  rw [sequentialPc, h.pc]; rfl

theorem SameWords.effectiveAddress_eq (h : SameWords s t) (rs : RegIdx) (imm16 : BitVec 16) :
    effectiveAddress t rs imm16 = effectiveAddress s rs imm16 := by
  rw [effectiveAddress, h.readReg_eq]; rfl

theorem SameWords.branchDifference_eq (h : SameWords s t) (rs rt : RegIdx) :
    branchDifference t rs rt = branchDifference s rs rt := by
  rw [branchDifference, h.readReg_eq, h.readReg_eq]; rfl

theorem SameWords.branchPc_eq (h : SameWords s t) (taken : Bool) (target : Word) :
    branchPc t taken target = branchPc s taken target := by
  rw [branchPc, h.sequentialPc_eq]; rfl

/-- The instruction does the same in both: only `lw` looks at memory, and at a word of the image. -/
theorem SameWords.effectOf_eq (h : SameWords s t) (hwf : s.cfg.wf = true) (i : Instr) :
    effectOf i t = effectOf i s := by
  cases i with
  | lw rs rt imm =>
    have hacc : accessible t.cfg (effectiveAddress t rs imm) = accessible s.cfg (effectiveAddress s rs imm) := by
      rw [h.accessible_eq, h.effectiveAddress_eq]
    cases ha : accessible s.cfg (effectiveAddress s rs imm) with
    | true =>
      rw [effectOf_lw ha, effectOf_lw (hacc.trans ha), h.effectiveAddress_eq, h.sequentialPc_eq, h.data_word_eq hwf ha]
    | false =>
      rw [effectOf_lw_fault ha, effectOf_lw_fault (hacc.trans ha), h.effectiveAddress_eq, h.pc]
  | sw rs rt imm =>
    simp only [effectOf, h.accessible_eq, h.effectiveAddress_eq, h.readReg_eq, h.sequentialPc_eq, h.pc]
  | beq rs rt imm | bne rs rt imm => simp only [effectOf, h.branchPc_eq, h.branchDifference_eq, h.pc]
  | _ => simp only [effectOf, h.readReg_eq, h.sequentialPc_eq]

/-! ### Byte order: a step keeps it -/

theorem SameWords.after_takeFault (h : SameWords s t) (f : Fault) : SameWords (takeFault f s) (takeFault f t) :=
  ⟨h.cfg, h.regs, h.pc, rfl, by simp [h.trace], h.words⟩

/-- A store to a word of the image leaves every word equal: the stored one holds the value in both, and any other is
out of its reach. -/
theorem SameWords.words_commitStore (h : SameWords s t) (hwf : s.cfg.wf = true) (hs : Memory.wf s.mem)
    (ht : Memory.wf t.mem) {store : Option (Word × Word)}
    (hstore : ∀ a v, store = some (a, v) → accessible s.cfg a = true) {k : Nat}
    (hk : k < s.cfg.imemWords + s.cfg.dmemWords) :
    Memory.readWord t.cfg.byteOrder (commitStore t.cfg t.mem store) (s.cfg.base + 4 * k) =
      Memory.readWord s.cfg.byteOrder (commitStore s.cfg s.mem store) (s.cfg.base + 4 * k) := by
  cases store with
  | none => exact h.words k hk
  | some p =>
    obtain ⟨a, v⟩ := p
    obtain ⟨j, -, ha⟩ := accessible_image_word hwf (hstore a v rfl)
    simp only [commitStore, ha]
    by_cases hkj : k = j
    · rw [hkj, Memory.readWord_writeWord_same ht, Memory.readWord_writeWord_same hs]
    · have hdisjoint : s.cfg.base + 4 * k + 4 ≤ s.cfg.base + 4 * j ∨ s.cfg.base + 4 * j + 4 ≤ s.cfg.base + 4 * k := by
        omega
      rw [Memory.readWord_writeWord_other ht hdisjoint, Memory.readWord_writeWord_other hs hdisjoint]
      exact h.words k hk

theorem SameWords.after_commit (h : SameWords s t) (hwf : s.cfg.wf = true) (hs : Memory.wf s.mem)
    (ht : Memory.wf t.mem) {i : Instr} {e : Effect} (he : effectOf i s = .ok e) :
    SameWords (commit i e s) (commit i e t) where
  cfg := h.cfg
  regs := h.commitRegs_eq e.reg
  pc := rfl
  status := h.status
  trace := by rw [commit_trace, commit_trace, h.retireRecord_eq, h.trace]
  words _ hk := h.words_commitStore hwf hs ht (fun _ _ hst => effectOf_store_accessible he hst) hk

theorem SameWords.sameOutcome_exec (h : SameWords s t) (hwf : s.cfg.wf = true) (hs : Memory.wf s.mem)
    (ht : Memory.wf t.mem) (i : Instr) : SameOutcome (exec i s) (exec i t) := by
  have heq := h.effectOf_eq hwf i
  cases he : effectOf i s with
  | ok e =>
    rw [exec_of_effect he, exec_of_effect (heq.trans he)]
    exact h.after_commit hwf hs ht he
  | error f =>
    rw [exec_of_fault he, exec_of_fault (heq.trans he)]
    exact h.after_takeFault f

theorem SameWords.sameOutcome_decodeAndExecute (h : SameWords s t) (hwf : s.cfg.wf = true) (hs : Memory.wf s.mem)
    (ht : Memory.wf t.mem) (w : Word) : SameOutcome (decodeAndExecute w s) (decodeAndExecute w t) := by
  unfold decodeAndExecute
  cases decodeWord w with
  | ok i => exact h.sameOutcome_exec hwf hs ht i
  | error e => rw [h.pc]; exact h.after_takeFault _

theorem SameWords.sameOutcome_runCycle (h : SameWords s t) (hwf : s.cfg.wf = true) (hs : Memory.wf s.mem)
    (ht : Memory.wf t.mem) :
    SameOutcome (runCycle s) (runCycle t) := by
  unfold runCycle
  rw [h.fetch_eq hwf]
  cases fetch s with
  | some w => exact h.sameOutcome_decodeAndExecute hwf hs ht w
  | none => rw [h.pc]; exact h.after_takeFault _

end

/-- Settles O52: both machines pass or fail the same check at each stage, of the configuration, the run status
and then of the cycle by `SameWords.sameOutcome_runCycle`. -/
theorem byteOrderIsNotObservable : Obligations.ByteOrderIsNotObservable := by
  intro s t hs ht h
  cases hwf : s.cfg.wf with
  | false =>
    rw [step_of_wf_eq_false hwf, step_of_wf_eq_false (h.wf_eq.trans hwf)]
    exact rfl
  | true =>
    simp only [step, stepRequest, h.wf_eq, hwf, h.status]
    cases s.status with
    | running => exact h.sameOutcome_runCycle hwf hs ht
    | halted => exact h
    | faulted f => exact h

end Sys2Proof.Machine
end

section
/-! PROOFS for spec/30_encoding.md: the three classes of words, the format an opcode chooses, the range of a jump, and
what the assembler makes of `nop`, `li` and a branch to a label. -/

namespace Sys2Proof

/-! ### The table in numbers (R90, R93) -/

section
variable {code : BitVec 6}

theorem eq_rOpcode_iff : code = rOpcode ↔ code.toNat = 0 := BitVec.toNat_inj.symm

theorem rOpOf_eq_none_iff :
    rOpOf code = none ↔ code.toNat ∉ [0x00, 0x02, 0x08, 0x21, 0x23, 0x24, 0x25, 0x2A] := by
  rw [rOpOf, List.find?_eq_none]
  simp [rOps, functCode, BitVec.toNat_eq, @eq_comm _ _ code.toNat]

theorem jOpOf_eq_none_iff : jOpOf code = none ↔ code.toNat ∉ [2, 3] := by
  rw [jOpOf, List.find?_eq_none]
  simp [jOps, jCode, BitVec.toNat_eq, @eq_comm _ _ code.toNat]

theorem iOpOf_eq_none_iff : iOpOf code = none ↔ code.toNat ∉ [4, 5, 9, 12, 13, 15, 35, 43] := by
  rw [iOpOf, List.find?_eq_none]
  simp [iOps, iCode, BitVec.toNat_eq, @eq_comm _ _ code.toNat]

theorem mem_of_iOpOf_eq_some {op : IOp} (h : iOpOf code = some op) : code.toNat ∈ [4, 5, 9, 12, 13, 15, 35, 43] := by
  rw [← iCode_of_iOpOf h]
  cases op <;> decide

end

/-! ### The three classes of words (R94) -/

theorem decodeWord_eq_unsupportedOpcode {w : Word} :
    decodeWord w = .error .unsupportedOpcode ↔
      opcodeField w ≠ rOpcode ∧ jOpOf (opcodeField w) = none ∧ iOpOf (opcodeField w) = none := by
  rcases decodeWord_cases w with ⟨op, hr, hf, hd⟩ | ⟨op, hr, hj, hd⟩ | ⟨op, hr, hj, hi, hd⟩ | ⟨hr, hf, hd⟩ |
    ⟨hr, hj, hi, hd⟩ <;> simp [*]

theorem decodeWord_eq_unsupportedFunct {w : Word} :
    decodeWord w = .error .unsupportedFunct ↔ opcodeField w = rOpcode ∧ rOpOf (functField w) = none := by
  rcases decodeWord_cases w with ⟨op, hr, hf, hd⟩ | ⟨op, hr, hj, hd⟩ | ⟨op, hr, hj, hi, hd⟩ | ⟨hr, hf, hd⟩ |
    ⟨hr, hj, hi, hd⟩ <;> simp [*]

/-- The decoder is total: a word of neither error is an instruction. -/
theorem decodeWord_isOk_iff {w : Word} :
    (∃ i, decodeWord w = .ok i) ↔
      decodeWord w ≠ .error .unsupportedOpcode ∧ decodeWord w ≠ .error .unsupportedFunct := by
  rcases h : decodeWord w with (_ | _) | i <;> simp

/-- Settles O3: the two errors in numbers, and an instruction is what is left. -/
theorem everyWordIsClassified : Obligations.EveryWordIsClassified := by
  intro w opcode funct
  have hopcode : decodeWord w = .error .unsupportedOpcode ↔ opcode ∉ [0, 2, 3, 4, 5, 9, 12, 13, 15, 35, 43] := by
    rw [decodeWord_eq_unsupportedOpcode, Ne, eq_rOpcode_iff, jOpOf_eq_none_iff, iOpOf_eq_none_iff, ← not_or, ← not_or,
      not_iff_not]
    change opcode = 0 ∨ opcode ∈ [2, 3] ∨ opcode ∈ [4, 5, 9, 12, 13, 15, 35, 43] ↔ _
    simp [or_assoc]
  have hfunct : decodeWord w = .error .unsupportedFunct ↔
      opcode = 0 ∧ funct ∉ [0x00, 0x02, 0x08, 0x21, 0x23, 0x24, 0x25, 0x2A] := by
    rw [decodeWord_eq_unsupportedFunct, eq_rOpcode_iff, rOpOf_eq_none_iff]
    rfl
  refine ⟨hopcode, hfunct, ?_⟩
  have hdisjoint : opcode = 0 → opcode ∉ [2, 3, 4, 5, 9, 12, 13, 15, 35, 43] := fun h => by rw [h]; decide
  rw [decodeWord_isOk_iff, Ne, Ne, hopcode, hfunct, List.mem_cons]
  tauto

end Sys2Proof

namespace Sys2Proof.Machine

/-! ### The format an opcode chooses (R81, R113) -/

/-- The four answers of the datapath's decoder. -/
theorem decodeRecord_cases (w pc : Word) :
    (opcodeField w = rOpcode ∧
      decodeRecord w pc = .ok (.r (rsField w) (rtField w) (rdField w) (shamtField w) (functField w))) ∨
    (opcodeField w ≠ rOpcode ∧ jOpOf (opcodeField w) ≠ none ∧
      decodeRecord w pc = .ok (.j (opcodeField w) (jumpTarget (targetField w)))) ∨
    (∃ op, opcodeField w ≠ rOpcode ∧ jOpOf (opcodeField w) = none ∧ iOpOf (opcodeField w) = some op ∧
      decodeRecord w pc =
        .ok (.i (opcodeField w) (rsField w) (rtField w) (assembleImmediate op pc (immField w)))) ∨
    (opcodeField w ≠ rOpcode ∧ jOpOf (opcodeField w) = none ∧ iOpOf (opcodeField w) = none ∧
      decodeRecord w pc = .error (.unsupportedOpcode pc w)) := by
  by_cases hr : opcodeField w = rOpcode
  · exact .inl ⟨hr, by simp [decodeRecord, hr]⟩
  · cases hj : jOpOf (opcodeField w) with
    | some op => exact .inr (.inl ⟨hr, nofun, by simp [decodeRecord, hr, hj]⟩)
    | none =>
      cases hi : iOpOf (opcodeField w) with
      | some op => exact .inr (.inr (.inl ⟨op, hr, rfl, rfl, by simp [decodeRecord, hr, hj, hi]⟩))
      | none => exact .inr (.inr (.inr ⟨hr, rfl, rfl, by simp [decodeRecord, hr, hj, hi]⟩))

/-- Settles O6: in each of the four answers of `decodeRecord_cases` the opcode is of that answer's set and of no
other. -/
theorem opcodeAloneChoosesTheFormat : Obligations.OpcodeAloneChoosesTheFormat := by
  intro w pc opcode
  have htarget : (jumpTarget (targetField w)).toNat = (w.extractLsb 25 0).toNat * 4 :=
    (toNat_jumpTarget _).trans (Nat.mul_comm _ _)
  have hopcode : (opcodeField w).toNat = opcode := rfl
  rcases decodeRecord_cases w pc with ⟨hr, hd⟩ | ⟨hr, hj, hd⟩ | ⟨op, -, -, hi, hd⟩ | ⟨hr, hj, hi, hd⟩
  · have hset : opcode = 0 := eq_rOpcode_iff.1 hr
    simp [hd, hset]
  · have hset : opcode ∈ [2, 3] := by_contra fun h => hj (jOpOf_eq_none_iff.2 h)
    simp [hd, hopcode, htarget, -BitVec.extractLsb_toNat] at hset ⊢
    omega
  · have hset : opcode ∈ [4, 5, 9, 12, 13, 15, 35, 43] := mem_of_iOpOf_eq_some hi
    simp [hd] at hset ⊢
    omega
  · have hr : opcode ≠ 0 := mt eq_rOpcode_iff.2 hr
    have hj : opcode ∉ [2, 3] := jOpOf_eq_none_iff.1 hj
    have hi : opcode ∉ [4, 5, 9, 12, 13, 15, 35, 43] := iOpOf_eq_none_iff.1 hi
    simp [hd] at hj hi ⊢
    omega

/-- Settles O8: the field times 4 is a multiple of 4 below 2^28, and every such word is 4 times its quotient. -/
theorem jumpTargetsAreInRange : Obligations.JumpTargetsAreInRange := by
  refine ⟨fun target26 => (toNat_jumpTarget target26).trans (Nat.mul_comm _ _), fun target => ⟨?range, ?reached⟩⟩
  case range =>
    rintro ⟨target26, rfl⟩
    rw [toNat_jumpTarget]
    omega
  case reached =>
    rintro ⟨haligned, hmax⟩
    refine ⟨BitVec.ofNat 26 (target.toNat / 4), BitVec.eq_of_toNat_eq ?_⟩
    rw [toNat_jumpTarget, BitVec.toNat_ofNat]
    omega

/-! ### A register write and nothing else (R119, R124) -/

section
variable {s t u : State} {d : RegIdx} {v v' : Word}

theorem retired_commit (i : Instr) (e : Effect) (s : State) : Retired s (commit i e s) := ⟨rfl, rfl, _, rfl⟩

theorem regWritten_commit {i : Instr} {e : Effect} (h : e.reg = some (d, v)) : RegWritten s (commit i e s) d v := by
  intro r
  rw [readReg_commit, h]
  simp only [hardwired_eq_false]

/-- An instruction whose effect is a register write and the sequential pc completes with exactly that (R119, R124). -/
theorem exec_writes_register {i : Instr}
    (h : effectOf i s = .ok { reg := some (d, v), nextPc := sequentialPc s }) :
    ∃ t, exec i s = .next t ∧ RegWritten s t d v ∧ t.pc = s.pc + 4 ∧ SameBytes s t ∧ Retired s t :=
  ⟨_, exec_of_effect h, regWritten_commit rfl, rfl, fun _ => rfl, retired_commit _ _ _⟩

/-- Of two writes to one register the second stays. -/
theorem RegWritten.trans (hcfg : t.cfg = s.cfg) (h : RegWritten s t d v) (h' : RegWritten t u d v') :
    RegWritten s u d v' := by
  intro r
  rw [h' r, h r, hcfg]
  split_ifs <;> rfl

/-- The value of a write that is lost does not matter. -/
theorem RegWritten.congr (h : RegWritten s t d v) (hv : hardwired s.cfg d = false → v = v') :
    RegWritten s t d v' := by
  intro r
  rw [h r]
  split_ifs with hr
  · exact hv (hardwired_eq_false.2 hr.2)
  · rfl

end

/-! ### `nop` (R96) -/

/-- Writing back what a register reads as changes nothing. -/
theorem writeFile_readFile (c : Config) (regs : Vector Word 32) (i : RegIdx) :
    writeFile c regs i (readFile c regs i) = regs := by
  cases hi : hardwired c i with
  | true => exact writeFile_of_hardwired hi regs _
  | false =>
    rw [readFile_of_not_hardwired hi]
    simp [writeFile, hi]

/-- Settles O53: a shift by 0 writes back to register 0 what it reads as. -/
theorem zeroWordIsNop : Obligations.ZeroWordIsNop := by
  refine ⟨by decide, rfl, fun s => ⟨_, exec_of_effect rfl, ?regs, rfl, rfl, retired_commit _ _ _⟩⟩
  case regs =>
    have hshift : shiftLeft (s.readReg 0) 0 = s.readReg 0 := BitVec.shiftLeft_zero _
    rw [commit_regs, hshift]
    exact writeFile_readFile s.cfg s.regs 0

/-! ### `li` (R99, D20) -/

theorem unsignedField_toNat (imm16 : BitVec 16) : unsignedField imm16.toNat = some imm16 := by
  rw [unsignedField, if_pos (by omega), BitVec.ofInt_natCast, BitVec.ofNat_toNat, BitVec.setWidth_eq]

/-- R88: the sign extension of R173 is shifted out. -/
theorem upperImmediate_eq_append (imm16 : BitVec 16) : upperImmediate imm16 = imm16 ++ 0#16 := by
  apply BitVec.eq_of_getLsbD_eq
  intro k hk
  simp only [upperImmediate, sext32, BitVec.getLsbD_shiftLeft, BitVec.getLsbD_signExtend, BitVec.getLsbD_append]
  grind

theorem upperImmediate_or_zext32 (hi lo : BitVec 16) : upperImmediate hi ||| zext32 lo = hi ++ lo := by
  rw [upperImmediate_eq_append]
  apply BitVec.eq_of_getLsbD_eq
  intro k hk
  simp only [zext32, BitVec.getLsbD_or, BitVec.getLsbD_append, BitVec.truncate_eq_setWidth, BitVec.getLsbD_setWidth]
  grind

/-- Settles O54: `lui` writes the upper half and `ori` puts the lower half beside it; where register 0 is hardwired both
writes are lost. -/
theorem loadConstantPseudoIsExact : Obligations.LoadConstantPseudoIsExact := by
  intro rt imm32 pc s
  obtain ⟨t, hlui, hupper, hpc, -, -, hcfg, -⟩ :=
    exec_writes_register (i := .lui 0 rt (imm32.extractLsb' 16 16)) (s := s) rfl
  obtain ⟨u, hori, hlower, hpc', -⟩ := exec_writes_register (i := .ori rt rt (imm32.extractLsb' 0 16)) (s := t) rfl
  refine ⟨_, _, t, u, ?assembled, hlui, hori, (hupper.trans hcfg hlower).congr fun hrt => ?value, ?pc⟩
  case assembled => simp only [pseudoLi, assemble, unsignedField_toNat, List.map, Option.map]
  case value =>
    have hread : t.readReg rt = upperImmediate (imm32.extractLsb' 16 16) := by
      rw [hupper rt, if_pos ⟨rfl, hardwired_eq_false.1 hrt⟩]
    rw [hread, upperImmediate_or_zext32]
    exact BitVec.extractLsb'_append_extractLsb'
  case pc =>
    rw [hpc', hpc, BitVec.add_assoc]
    rfl

/-! ### A branch to a label (R98, D20) -/

theorem signedField_of_inRange {n : Int} (h : -32768 ≤ n ∧ n ≤ 32767) : signedField n = some (BitVec.ofInt 16 n) :=
  if_pos h

theorem signedField_of_outOfRange {n : Int} (h : n < -32768 ∨ 32767 < n) : signedField n = none :=
  if_neg (by omega)

theorem sext32_ofInt {n : Int} (h : -32768 ≤ n ∧ n ≤ 32767) : sext32 (BitVec.ofInt 16 n) = BitVec.ofInt 32 n := by
  rw [sext32, BitVec.signExtend, BitVec.toInt_ofInt_eq_self (by decide) h.1 (by omega)]

theorem branchTarget_ofInt (pc : Word) {n : Int} (h : -32768 ≤ n ∧ n ≤ 32767) :
    branchTarget pc (BitVec.ofInt 16 n) = BitVec.ofInt 32 (pc.toNat + 4 + n * 4) := by
  rw [branchTarget, sext32_ofInt h, BitVec.ofInt_add, BitVec.ofInt_add, BitVec.ofInt_mul, BitVec.ofInt_natCast,
    BitVec.ofNat_toNat, BitVec.setWidth_eq, BitVec.shiftLeft_eq_mul_twoPow]
  rfl

/-- From an aligned pc the distance to an aligned label is 4 times the number `n` the assembler puts in the field. -/
theorem exists_branchField_eq_signedField {pc : Word} {label : Nat} (hpc : pc.toNat % 4 = 0) (hlabel : label % 4 = 0) :
    ∃ n : Int, (label : Int) = pc.toNat + 4 + n * 4 ∧ branchField pc label = signedField n :=
  ⟨((label : Int) - (pc.toNat + 4)) / 4, by omega, if_pos hlabel⟩

/-- Settles O55: by `exists_branchField_eq_signedField` the label is in range exactly where its `n` is, and then the
target of the field is the label by `branchTarget_ofInt`. -/
theorem assembledBranchReachesLabel : Obligations.AssembledBranchReachesLabel := by
  intro pc label hpc hlabel
  by_cases haligned : label % 4 = 0
  swap
  · exact ⟨fun h => absurd h.1 haligned, fun _ => if_neg haligned⟩
  obtain ⟨n, hn, hfield⟩ := exists_branchField_eq_signedField hpc haligned
  rw [hfield]
  refine ⟨fun ⟨_, hlo, hhi⟩ => ?accepted, fun h => signedField_of_outOfRange (by omega)⟩
  case accepted =>
    have hrange : -32768 ≤ n ∧ n ≤ 32767 := by omega
    refine ⟨_, signedField_of_inRange hrange, ?_⟩
    rw [branchTarget_ofInt pc hrange, ← hn, BitVec.ofInt_natCast, BitVec.toNat_ofNat, Nat.mod_eq_of_lt hlabel]

end Sys2Proof.Machine
end

section
/-! PROOFS for spec/40_datapath.md: what a step of a running machine is, its agreement with the step composed from the
six sub-blocks, its arc and its retire record, the host's halt, and the trace as an account of the run. -/

namespace Sys2Proof

/-! ### The word of a decoded instruction (R81 to R84, R112) -/

/-- Settles O2: a word is put together from its fields, and the opcode and funct of the operation found are those it was
found by. -/
theorem encodeAfterDecode : Obligations.EncodeAfterDecode := by
  intro w i h
  rcases decodeWord_cases w with ⟨op, hr, hf, hd⟩ | ⟨op, -, hj, hd⟩ | ⟨op, -, -, hi, hd⟩ | ⟨-, -, hd⟩ |
    ⟨-, -, -, hd⟩ <;> cases hd.symm.trans h
  · rw [encode_rInstr, encodeR, functCode_of_rOpOf hf, ← hr]
    exact (word_eq_r_fields w).symm
  · rw [encode_jInstr, encodeJ, jCode_of_jOpOf hj]
    exact (word_eq_j_fields w).symm
  · rw [encode_iInstr, encodeI, iCode_of_iOpOf hi]
    exact (word_eq_i_fields w).symm

/-- Settles O4: the decoder is run on each of the eleven words. -/
theorem specWordsDecode : Obligations.SpecWordsDecode := by
  refine ⟨?_, ?_, ?_, ?_, ?_, ?_, ?_, ?_, ?_, ?_, ?_⟩ <;> decide

end Sys2Proof

namespace Sys2Proof.Machine

/-! ### A step of a running machine (R125, R142, R231) -/

section
variable {s t : State} {i : Instr} {e : Effect} {f : Fault}

/-- Settles O34: each check of the step passes by its premise. -/
theorem stepRunsTheDecodedInstruction : Obligations.StepRunsTheDecodedInstruction := by
  intro s i hwf hst hpc hdec
  have hfetch : fetch s = some (s.wordAt s.pc.toNat) := fetch_eq_some.2 ⟨hpc, rfl⟩
  simp [step, stepRequest, hwf, hst, runCycle, hfetch, decodeAndExecute, hdec]

theorem step_of_not_running (hwf : s.cfg.wf = true) (hst : s.status ≠ .running) : step s = .next s := by
  cases h : s.status with
  | running => exact absurd h hst
  | halted | faulted f => simp [step, stepRequest, hwf, h]

theorem decodeFault_pc (e : DecodeError) (pc w : Word) : (decodeFault e pc w).pc = some pc := by
  cases e <;> rfl

theorem effectOf_error_pc (h : effectOf i s = .error f) : f.pc = some s.pc := by
  obtain ⟨rs, rt, imm, -, rfl, -⟩ := effectOf_error h
  rfl

/-- A step of a running machine takes a fault that names the pc, or commits the effect of the instruction that lies
there. -/
theorem step_running_cases (hwf : s.cfg.wf = true) (hst : s.status = .running) :
    (∃ f, f.pc = some s.pc ∧ step s = .next (takeFault f s)) ∨
    (∃ i e, fetchable s.cfg s.pc = true ∧ decodeWord (s.wordAt s.pc.toNat) = .ok i ∧ effectOf i s = .ok e ∧
      step s = .next (commit i e s)) := by
  rcases step_cases s with ⟨hbad, -⟩ | ⟨-, hstop, -⟩ | ⟨-, -, -, hs⟩ | ⟨e, -, -, -, -, hs⟩ |
    ⟨i, f, -, -, -, -, he, hs⟩ | ⟨i, e, -, -, hpc, hdec, he, hs⟩
  · simp [hwf] at hbad
  · exact absurd hst hstop
  · exact .inl ⟨_, rfl, hs⟩
  · exact .inl ⟨_, decodeFault_pc e _ _, hs⟩
  · exact .inl ⟨f, effectOf_error_pc he, hs⟩
  · exact .inr ⟨i, e, hpc, hdec, he, hs⟩

theorem faultedFrom_takeFault (f : Fault) (s : State) : FaultedFrom s (takeFault f s) f :=
  ⟨rfl, rfl, rfl, rfl, rfl, rfl⟩

/-- Settles O36: by `step_running_cases`; a commit keeps the status and a fault everything else. -/
theorem stepCompletesOrFaults : Obligations.StepCompletesOrFaults := by
  intro s hwf hst
  rcases step_running_cases hwf hst with ⟨f, -, hs⟩ | ⟨i, e, -, -, -, hs⟩
  · exact ⟨_, hs, .inr ⟨f, faultedFrom_takeFault f s⟩⟩
  · exact ⟨_, hs, .inl ⟨hst, retired_commit i e s⟩⟩

/-! ### The six sub-blocks on a decoded word (R113 to R123) -/

theorem decodedRecord_rInstr (pc : Word) (op : ROp) (rs rt rd : RegIdx) (shamt : BitVec 5) :
    decodedRecord pc (op.instr rs rt rd shamt) = .r rs rt rd shamt (functCode op) := by cases op <;> rfl

theorem decodedRecord_jInstr (pc : Word) (op : JOp) (target26 : BitVec 26) :
    decodedRecord pc (op.instr target26) = .j (jCode op) (jumpTarget target26) := by cases op <;> rfl

theorem decodedRecord_iInstr (pc : Word) (op : IOp) (rs rt : RegIdx) (imm16 : BitVec 16) :
    decodedRecord pc (op.instr rs rt imm16) = .i (iCode op) rs rt (assembleImmediate op pc imm16) := by
  cases op <;> rfl

/-- The decoder of the datapath makes the record of the instruction. -/
theorem decodeRecord_of_decodeWord {w : Word} (h : decodeWord w = .ok i) (pc : Word) :
    decodeRecord w pc = .ok (decodedRecord pc i) := by
  rcases decodeWord_cases w with ⟨op, hr, hf, hd⟩ | ⟨op, hr, hj, hd⟩ | ⟨op, hr, hj, hi, hd⟩ | ⟨-, -, hd⟩ |
    ⟨-, -, -, hd⟩ <;> cases hd.symm.trans h
  · rw [decodedRecord_rInstr, functCode_of_rOpOf hf]
    simp [decodeRecord, hr]
  · rw [decodedRecord_jInstr, jCode_of_jOpOf hj]
    simp [decodeRecord, hr, hj]
  · rw [decodedRecord_iInstr, iCode_of_iOpOf hi]
    simp [decodeRecord, hr, hj, hi]

theorem isLoad_lw (pc : Word) (rs rt : RegIdx) (imm16 : BitVec 16) :
    isLoad (decodedRecord pc (.lw rs rt imm16)) = true := rfl

theorem isLoad_sw (pc : Word) (rs rt : RegIdx) (imm16 : BitVec 16) :
    isLoad (decodedRecord pc (.sw rs rt imm16)) = false := rfl

theorem isStore_sw (pc : Word) (rs rt : RegIdx) (imm16 : BitVec 16) :
    isStore (decodedRecord pc (.sw rs rt imm16)) = true := rfl

/-- The word loaded through the translator is the one at the effective address. -/
theorem dmem_of_accessible {ea : Word} (hwf : s.cfg.wf = true) (h : accessible s.cfg ea = true) :
    s.dmem ((ea.toNat - s.cfg.dataBase) / 4) = s.wordAt ea.toNat := by
  rw [State.dmem, data_address hwf h]

/-- Where the instruction takes a fault, the ALU answers and the memory unit raises that fault. -/
theorem stages_of_fault (he : effectOf i s = .error f) (w : Word) :
    ∃ r, aluExecute (decodedRecord s.pc i) (readSnapshot s (decodedRecord s.pc i)) s.pc w = .ok r ∧
      memAccess s (decodedRecord s.pc i) r (readSnapshot s (decodedRecord s.pc i)) = .error f := by
  obtain ⟨rs, rt, imm, hi, rfl, hacc⟩ := effectOf_error he
  have hnone := translateData_of_not_accessible hacc
  rcases hi with rfl | rfl
  · exact ⟨effectiveAddress s rs imm, rfl, by simp [memAccess, isLoad_lw, hnone]⟩
  · exact ⟨effectiveAddress s rs imm, rfl, by simp [memAccess, isLoad_sw, isStore_sw, hnone]⟩

/-- Where the instruction has an effect, the ALU and the memory unit answer, and the next pc, the selected register with
its value and the store are those of the effect. -/
theorem stages_of_effect (hwf : s.cfg.wf = true) (he : effectOf i s = .ok e) (w : Word) :
    ∃ r m, aluExecute (decodedRecord s.pc i) (readSnapshot s (decodedRecord s.pc i)) s.pc w = .ok r ∧
      memAccess s (decodedRecord s.pc i) r (readSnapshot s (decodedRecord s.pc i)) = .ok m ∧
      nextPc (decodedRecord s.pc i) r s.pc = e.nextPc ∧
      (wbSelect (decodedRecord s.pc i)).map (fun dst => (dst, m.value)) = e.reg ∧ m.store = e.store := by
  cases i with
  | lw rs rt imm =>
    cases hacc : accessible s.cfg (effectiveAddress s rs imm) with
    | false => rw [effectOf_lw_fault hacc] at he; cases he
    | true =>
      rw [effectOf_lw hacc] at he
      cases he
      refine ⟨effectiveAddress s rs imm, ⟨s.wordAt (effectiveAddress s rs imm).toNat, none⟩, rfl, ?_, rfl, rfl, rfl⟩
      simp [memAccess, isLoad_lw, translateData_of_accessible hacc, dmem_of_accessible hwf hacc]
  | sw rs rt imm =>
    cases hacc : accessible s.cfg (effectiveAddress s rs imm) with
    | false => rw [effectOf_sw_fault hacc] at he; cases he
    | true =>
      rw [effectOf_sw hacc] at he
      cases he
      refine ⟨effectiveAddress s rs imm, ⟨effectiveAddress s rs imm, some (effectiveAddress s rs imm, s.readReg rt)⟩,
        rfl, ?_, rfl, rfl, rfl⟩
      simp only [memAccess, isLoad_sw, isStore_sw, translateData_of_accessible hacc]
      rfl
  | beq rs rt imm =>
    cases he
    refine ⟨branchDifference s rs rt, _, rfl, rfl, ?_, rfl, rfl⟩
    simp only [branchPc, beq_iff_eq]
    rfl
  | bne rs rt imm =>
    cases he
    refine ⟨branchDifference s rs rt, _, rfl, rfl, ?_, rfl, rfl⟩
    simp only [branchPc, bne_iff_ne]
    rfl
  | _ => cases he; exact ⟨_, _, rfl, rfl, rfl, rfl, rfl⟩

/-! ### The whole step of the datapath (R125) -/

theorem signals_of_not_fetchable (hpc : fetchable s.cfg s.pc = false) : signals s = .error (.fetchFault s.pc) := by
  rw [signals, translateFetch_of_not_fetchable hpc]

/-- The word fetched through the translator is the one at the pc. -/
theorem imem_of_fetchable (hwf : s.cfg.wf = true) (hpc : fetchable s.cfg s.pc = true) :
    s.imem ((s.pc.toNat - s.cfg.base) / 4) = s.wordAt s.pc.toNat := by
  rw [State.imem, fetch_address hwf hpc]

/-- A word that is no instruction is refused by the decoder for its opcode and by the ALU for its funct (log 12). -/
theorem signals_of_decodeError {e : DecodeError} (hwf : s.cfg.wf = true) (hpc : fetchable s.cfg s.pc = true)
    (hdec : decodeWord (s.wordAt s.pc.toNat) = .error e) :
    signals s = .error (decodeFault e s.pc (s.wordAt s.pc.toNat)) := by
  rw [signals, translateFetch_of_fetchable hpc]
  simp only [imem_of_fetchable hwf hpc]
  cases e with
  | unsupportedFunct =>
    obtain ⟨hr, hf⟩ := decodeWord_eq_unsupportedFunct.1 hdec
    simp [decodeRecord, hr, aluExecute, hf, decodeFault]
  | unsupportedOpcode =>
    obtain ⟨hr, hj, hi⟩ := decodeWord_eq_unsupportedOpcode.1 hdec
    simp [decodeRecord, hr, hj, hi, decodeFault]

theorem signals_of_fault (hwf : s.cfg.wf = true) (hpc : fetchable s.cfg s.pc = true)
    (hdec : decodeWord (s.wordAt s.pc.toNat) = .ok i) (he : effectOf i s = .error f) : signals s = .error f := by
  obtain ⟨r, halu, hmem⟩ := stages_of_fault he (s.wordAt s.pc.toNat)
  rw [signals, translateFetch_of_fetchable hpc]
  simp only [imem_of_fetchable hwf hpc, decodeRecord_of_decodeWord hdec, halu, hmem]

/-- The store of an effect goes to its own address: translated and back it is the same. -/
theorem commitDataWord_of_effect (hwf : s.cfg.wf = true) (he : effectOf i s = .ok e) :
    commitDataWord s e.store = commitStore s.cfg s.mem e.store := by
  cases hs : e.store with
  | none => rfl
  | some p => rw [commitDataWord, commitStore, data_address hwf (effectOf_store_accessible he hs)]

/-- Where the instruction has an effect, the datapath commits it. -/
theorem datapathCycle_of_effect (hwf : s.cfg.wf = true) (hpc : fetchable s.cfg s.pc = true)
    (hdec : decodeWord (s.wordAt s.pc.toNat) = .ok i) (he : effectOf i s = .ok e) :
    datapathCycle s = commit i e s := by
  obtain ⟨r, m, halu, hmem, hnext, hreg, hstore⟩ := stages_of_effect hwf he (s.wordAt s.pc.toNat)
  rw [datapathCycle, signals, translateFetch_of_fetchable hpc]
  simp only [imem_of_fetchable hwf hpc, decodeRecord_of_decodeWord hdec, halu, hmem, commitSignals, hnext, hreg, hstore,
    commitDataWord_of_effect hwf he, commit, retireRecord, encodeAfterDecode _ _ hdec]

end

/-- Settles O35: stage by stage along `step_cases`; the datapath's first fault is the step's, and its commit is the
commit of the instruction's effect. -/
theorem stepIsTheDatapathStep : Obligations.StepIsTheDatapathStep := by
  intro s hwf hst
  rcases step_cases s with ⟨hbad, -⟩ | ⟨-, hstop, -⟩ | ⟨-, -, hpc, hs⟩ | ⟨e, -, -, hpc, hdec, hs⟩ |
    ⟨i, f, -, -, hpc, hdec, he, hs⟩ | ⟨i, e, -, -, hpc, hdec, he, hs⟩
  · simp [hwf] at hbad
  · exact absurd hst hstop
  · rw [hs, datapathCycle, signals_of_not_fetchable hpc]
  · rw [hs, datapathCycle, signals_of_decodeError hwf hpc hdec]
  · rw [hs, datapathCycle, signals_of_fault hwf hpc hdec he]
  · rw [hs, datapathCycle_of_effect hwf hpc hdec he]

/-! ### The arc a step takes (R118, R119) -/

/-- Settles O26: by the format and, of an I record, the operation; the two spellings of each branch test are one. -/
theorem nextPcIsTheArcOfTheRecord : Obligations.NextPcIsTheArcOfTheRecord := by
  intro d r pc
  cases d with
  | r rs rt rd shamt funct => simp only [nextPc, arcOf]; split_ifs <;> rfl
  | j opcode target => rfl
  | i opcode rs rt imm =>
    simp only [nextPc, arcOf]
    cases iOpOf opcode with
    | none => rfl
    | some op =>
      cases op with
      | beq =>
        rcases eq_or_ne r 0 with rfl | hr
        · rfl
        · simp only [if_neg hr]; rfl
      | bne =>
        rcases eq_or_ne r 0 with rfl | hr
        · rfl
        · simp only [if_pos hr, if_neg hr]; rfl
      | _ => rfl

theorem jumpTarget_eq_shiftLeft (target26 : BitVec 26) : jumpTarget target26 = target26.zeroExtend 32 <<< 2 := by
  apply BitVec.eq_of_toNat_eq
  rw [toNat_jumpTarget, BitVec.zeroExtend, BitVec.toNat_shiftLeft, BitVec.toNat_setWidth_of_le (by decide),
    Nat.shiftLeft_eq]
  omega

/-- Settles O25: a fault is taken with the pc kept; a completed instruction has the next pc of its effect, which for a
branch is the target exactly where `instrArc` says BRANCH. -/
theorem pcTakesTheArcOfTheInstruction : Obligations.PcTakesTheArcOfTheInstruction := by
  intro i s t h
  rcases exec_next_cases h with ⟨e, he, rfl⟩ | ⟨f, -, rfl⟩
  swap
  · exact .inl ⟨f, faultedFrom_takeFault f s⟩
  refine .inr ⟨retired_commit i e s, ?_⟩
  cases i with
  | beq rs rt imm16 =>
    cases he
    rw [commit_pc, branchPc_beq]
    by_cases heq : s.readReg rs = s.readReg rt
    · simp only [instrArc, if_pos heq]; rfl
    · simp only [instrArc, if_neg heq]
  | bne rs rt imm16 =>
    cases he
    rw [commit_pc, branchPc_bne]
    by_cases heq : s.readReg rs = s.readReg rt
    · simp only [instrArc, if_pos heq]
    · simp only [instrArc, if_neg heq]; rfl
  | j target26 | jal target26 => cases he; exact jumpTarget_eq_shiftLeft target26
  | lw rs rt imm16 | sw rs rt imm16 =>
    simp only [effectOf] at he
    split at he
    · cases he; rfl
    · cases he
  | _ => cases he; rfl

/-! ### The retire record (R127, D14, D19) -/

section
variable {s : State} {i : Instr} {e : Effect}

/-- An effect stores exactly where the instruction is a store. -/
theorem isStoreInstr_eq_isSome_store (he : effectOf i s = .ok e) : isStoreInstr i = e.store.isSome := by
  cases i with
  | lw rs rt imm | sw rs rt imm =>
    simp only [effectOf] at he
    split at he
    · cases he; rfl
    · cases he
  | _ => cases he; rfl

theorem sameRegs_commit_of_none (h : e.reg = none) : SameRegs s (commit i e s) := by
  intro r
  rw [readReg_commit, h]

theorem sameRegs_commit_of_hardwired {d : RegIdx} {v : Word} (h : e.reg = some (d, v))
    (hd : hardwired s.cfg d = true) : SameRegs s (commit i e s) := by
  intro r
  rw [readReg_commit, h]
  exact if_neg (by simp [hd])

theorem wordStored_commit {a v : Word} (hm : Memory.wf s.mem) (h : e.store = some (a, v)) :
    WordStored s (commit i e s) a.toNat v := by
  rw [WordStored, State.wordAt, commit_cfg, commit_mem, h]
  refine ⟨Memory.readWord_writeWord_same hm, fun b hb => ?_⟩
  exact (Memory.readByte_writeWord hm).trans (if_neg (by omega))

/-- A record reports no register exactly where nothing is written: there is no write, or it is suppressed. -/
theorem reportedReg_cases (c : Config) (reg : Option (RegIdx × Word)) :
    (reg = none ∧ reportedReg c reg = none) ∨
    (∃ d v, reg = some (d, v) ∧ hardwired c d = true ∧ reportedReg c reg = none) ∨
    (∃ d v, reg = some (d, v) ∧ hardwired c d = false ∧ reportedReg c reg = some (d, v)) := by
  cases reg with
  | none => exact .inl ⟨rfl, rfl⟩
  | some p =>
    cases hd : hardwired c p.1 with
    | true => exact .inr (.inl ⟨p.1, p.2, rfl, hd, by simp [reportedReg, hd]⟩)
    | false => exact .inr (.inr ⟨p.1, p.2, rfl, hd, by simp [reportedReg, hd]⟩)

end

/-- Settles O33: the record is `retireRecord` of the effect; its register is told apart by `reportedReg_cases`, its
store by whether the effect has one. -/
theorem retireRecordTellsTheChanges : Obligations.RetireRecordTellsTheChanges := by
  intro i s t hm h hstatus hrun
  rcases exec_next_cases h with ⟨e, he, rfl⟩ | ⟨f, -, rfl⟩
  swap
  · rw [hrun] at hstatus
    cases hstatus
  refine ⟨retireRecord i e s, rfl, rfl, rfl, rfl, rfl, ?register, ?store⟩
  case register =>
    have hdest := effectOf_reg he
    rw [retireRecord_reg]
    rcases reportedReg_cases s.cfg e.reg with ⟨hreg, hrep⟩ | ⟨d, v, hreg, hd, hrep⟩ | ⟨d, v, hreg, hd, hrep⟩ <;>
      rw [hrep] <;> rw [hreg] at hdest
    · exact ⟨sameRegs_commit_of_none hreg, fun d hw => by cases hdest.trans hw⟩
    · refine ⟨sameRegs_commit_of_hardwired hreg hd, fun d' hw => ?_⟩
      cases hdest.trans hw
      exact hardwired_eq_true.1 hd
    · have hwritten : RegWritten s (commit i e s) d v := regWritten_commit hreg
      exact ⟨hdest.symm, hwritten, (hwritten d).trans (if_pos ⟨rfl, hardwired_eq_false.1 hd⟩)⟩
  case store =>
    have hkind := isStoreInstr_eq_isSome_store he
    rw [retireRecord_mem]
    cases hs : e.store with
    | none => rw [hs] at hkind; exact ⟨by rw [commit_mem, hs]; rfl, hkind⟩
    | some p => rw [hs] at hkind; exact ⟨wordStored_commit hm hs, hkind⟩

/-! ### The host's halt (R142, R144) -/

/-- Settles O46: by the run status. -/
theorem haltRequestOnlyStops : Obligations.HaltRequestOnlyStops := by
  intro s
  cases hst : s.status with
  | running => exact ⟨fun _ => by simp [haltRequest, hst], fun h => absurd rfl h⟩
  | halted | faulted f => exact ⟨nofun, fun _ => by simp [haltRequest, hst]⟩

/-- No step makes a machine Halted. -/
theorem step_status_ne_halted {s t : State} (hst : s.status ≠ .halted) (h : step s = .next t) : t.status ≠ .halted := by
  rcases step_next_cases h with rfl | ⟨f, rfl⟩ | ⟨i, e, -, rfl⟩
  · exact hst
  · exact nofun
  · exact hst

/-- Settles O47: by induction on the requests, each of which is a step. -/
theorem onlyTheHostHalts : Obligations.OnlyTheHostHalts := by
  intro rs
  induction rs with
  | nil => rintro s t - hst h; cases h; exact hst
  | cons q rs ih =>
    intro s t hno hst h
    obtain ⟨hq, hrs⟩ := not_or.1 (mt List.mem_cons.2 hno)
    cases q with
    | halt => exact absurd rfl hq
    | step =>
      rw [serveAll, serve] at h
      cases hstep : step s with
      | next u => rw [hstep] at h; exact ih u t hrs (step_status_ne_halted hst hstep) h
      | fault f => rw [hstep] at h; cases h
      | refused q => rw [hstep] at h; cases h

/-! ### The halt marker (R145, D21) -/

theorem branchTarget_neg_one (pc : Word) : branchTarget pc (-1) = pc := by
  have hoffset : sext32 (-1) <<< 2 = (-4 : Word) := by decide
  simp only [branchTarget, Nat.cast_ofNat, hoffset]
  bv_omega

theorem effectOf_haltMarker (s : State) : effectOf haltMarker s = .ok { nextPc := s.pc } := by
  rw [haltMarker, effectOf, branchPc_beq, if_pos rfl, branchTarget_neg_one]

/-- Settles O56: the marker is a taken branch to its own address, and the word at the pc, which the step commits nothing
to, is again the marker. -/
theorem haltMarkerLoops : Obligations.HaltMarkerLoops := by
  have hexec (s : State) := exec_of_effect (effectOf_haltMarker s)
  refine ⟨by decide, fun s => ⟨_, hexec s, rfl, rfl, rfl, retired_commit _ _ _⟩, fun s h hwf hmark => ?_⟩
  obtain ⟨hst, hpc, hfetch⟩ := hmark
  obtain ⟨hfetchable, hword⟩ := fetch_eq_some.1 hfetch
  have hdec : decodeWord (s.wordAt s.pc.toNat) = .ok haltMarker := by rw [hword]; decide
  exact ⟨_, (stepRunsTheDecodedInstruction s haltMarker hwf hst hfetchable hdec).trans (hexec s), ⟨hst, hpc, hfetch⟩, rfl,
    rfl⟩

/-! ### The trace as an account of the run (R127, R141, R231, R64) -/

section
variable {s t : State} {i : Instr} {e : Effect}

/-- A faithful record stays so while the configuration and the instruction segment do. -/
theorem RecordFaithful.of_same_segment {r : Retire} (h : RecordFaithful s r) (hwf : s.cfg.wf = true)
    (hcfg : t.cfg = s.cfg) (hwords : ∀ b, b + 4 ≤ s.cfg.dataBase → t.wordAt b = s.wordAt b) : RecordFaithful t r := by
  obtain ⟨hpc, hword, hdec⟩ := h
  exact ⟨hcfg ▸ hpc, (hwords _ (fetchable_bounds hwf hpc).2).trans hword, hdec⟩

/-- The record of an instruction that was decoded from the word at the pc is faithful. -/
theorem recordFaithful_retireRecord (hpc : fetchable s.cfg s.pc = true)
    (hdec : decodeWord (s.wordAt s.pc.toNat) = .ok i) (e : Effect) : RecordFaithful s (retireRecord i e s) := by
  have hword : encode i = s.wordAt s.pc.toNat := encodeAfterDecode _ _ hdec
  refine ⟨hpc, hword.symm, i, ?_, rfl⟩
  rw [retireRecord_word, hword, hdec]

theorem TraceInv.chain_of_running (h : TraceInv s) (hst : s.status = .running) :
    TraceChain s.cfg.base s.pc s.trace := by
  have hchain := h.chain
  rwa [hst] at hchain

/-- A fault that names the pc closes the chain. -/
theorem TraceInv.after_takeFault (h : TraceInv s) (hst : s.status = .running) {f : Fault} (hf : f.pc = some s.pc) :
    TraceInv (takeFault f s) where
  faithful r hr := by
    rw [takeFault_trace, List.mem_cons] at hr
    exact h.faithful r (hr.resolve_left nofun)
  chain := .inr ⟨hf, s.trace, rfl, h.chain_of_running hst⟩

/-- The record of a commit goes on the chain, and no store reaches the words the records name. -/
theorem TraceInv.after_commit (h : TraceInv s) (hinv : Inv s) (hst : s.status = .running)
    (hpc : fetchable s.cfg s.pc = true) (hdec : decodeWord (s.wordAt s.pc.toNat) = .ok i)
    (he : effectOf i s = .ok e) : TraceInv (commit i e s) where
  faithful r hr := by
    have hold : RecordFaithful s r := by
      rcases List.mem_cons.1 hr with hnew | hr
      · cases hnew
        exact recordFaithful_retireRecord hpc hdec e
      · exact h.faithful r hr
    exact hold.of_same_segment hinv.configWf rfl fun b hb => commit_wordAt_below_data hinv.memoryWf he hb
  chain := by
    rw [commit_status, hst]
    exact ⟨rfl, h.chain_of_running hst⟩

theorem TraceInv.after_haltRequest (h : TraceInv s) : TraceInv (haltRequest s) := by
  obtain ⟨hstops, hkeeps⟩ := haltRequestOnlyStops s
  by_cases hst : s.status = .running
  · rw [hstops hst]
    exact ⟨h.faithful, h.chain_of_running hst⟩
  · rwa [hkeeps hst]

end

/-- Settles O51: a halt by `TraceInv.after_haltRequest`; a step of a running machine by `TraceInv.after_takeFault` or
`TraceInv.after_commit`, and of a stopped one by `step_of_not_running`. -/
theorem hostRequestsKeepTraceInvariant : Obligations.HostRequestsKeepTraceInvariant := by
  intro s t q hinv htrace h
  cases q with
  | halt => cases h; exact htrace.after_haltRequest
  | step =>
    have hstep : step s = .next t := h
    by_cases hst : s.status = .running
    · rcases step_running_cases hinv.configWf hst with ⟨f, hf, hs⟩ | ⟨i, e, hpc, hdec, he, hs⟩ <;>
        cases hs.symm.trans hstep
      · exact htrace.after_takeFault hst hf
      · exact htrace.after_commit hinv hst hpc hdec he
    · cases (step_of_not_running hinv.configWf hst).symm.trans hstep
      exact htrace

end Sys2Proof.Machine
end

section
/-! PROOFS for spec/41_register_alu.md: the two shifts, and the five operations on two registers. Each is a register
write and nothing else, by `exec_writes_register`; what is left is what the value written is. -/

namespace Sys2Proof.Machine

/-! ### A register write described by its value (R124) -/

/-- `exec_writes_register` for a result described by a property `P` of the value written. -/
theorem exec_writes_result {i : Instr} {s : State} {d : RegIdx} {v : Word} {P : Word → Prop}
    (h : effectOf i s = .ok { reg := some (d, v), nextPc := sequentialPc s }) (hv : P v) :
    ∃ t v, exec i s = .next t ∧ RegWritten s t d v ∧ P v ∧ t.pc = s.pc + 4 ∧ SameBytes s t ∧ Retired s t := by
  obtain ⟨t, hexec, hreg, hframe⟩ := exec_writes_register h
  exact ⟨t, v, hexec, hreg, hv, hframe⟩

/-! ### The values written (R153, R156) -/

/-- R153, D8: the difference of two words is their integer difference modulo 2^32. -/
theorem toNat_sub_eq_emod (a b : Word) : ((a - b).toNat : Int) = ((a.toNat : Int) - b.toNat) % 2 ^ 32 := by
  rw [BitVec.toNat_sub]
  omega

theorem setLessThan_of_lt {a b : Word} (h : a.toInt < b.toInt) : setLessThan a b = 1 := if_pos h

theorem setLessThan_of_le {a b : Word} (h : b.toInt ≤ a.toInt) : setLessThan a b = 0 := if_neg (Int.not_lt.2 h)

/-! ### Shifts (R150, R151) -/

/-- Settles O9: the effect of a shift is the write of the shifted `x[rt]`. -/
theorem shiftsWriteRd : Obligations.ShiftsWriteRd := fun _ _ _ _ _ =>
  ⟨rfl, rfl, exec_writes_register rfl, exec_writes_register rfl⟩

/-! ### Arithmetic and logic (R152 to R155) -/

/-- Settles O10: the value written is the `BitVec` sum or difference, taken modulo 2^32 by `BitVec.toNat_add` and
`toNat_sub_eq_emod`. -/
theorem addAndSubtractWriteRd : Obligations.AddAndSubtractWriteRd := fun _ _ _ _ _ =>
  ⟨rfl, rfl, exec_writes_result rfl (BitVec.toNat_add _ _), exec_writes_result rfl (toNat_sub_eq_emod _ _)⟩

/-- Settles O11: the value written is the `BitVec` conjunction or disjunction, which is bit by bit. -/
theorem andAndOrWriteRd : Obligations.AndAndOrWriteRd := fun _ _ _ _ _ =>
  ⟨rfl, rfl, exec_writes_result rfl fun _ => BitVec.getLsbD_and, exec_writes_result rfl fun _ => BitVec.getLsbD_or⟩

/-! ### Signed comparison (R156) -/

/-- Settles O12: the value written is `setLessThan`, which is 1 or 0 by the two sides of the signed comparison. -/
theorem setLessThanIsSigned : Obligations.SetLessThanIsSigned := by
  intro rs rt rd shamt s
  obtain ⟨t, hexec, hreg, hframe⟩ := exec_writes_register (i := .slt rs rt rd shamt) (s := s) rfl
  exact ⟨rfl, t, _, hexec, hreg, setLessThan_of_lt, setLessThan_of_le, hframe⟩

end Sys2Proof.Machine
end

section
/-! PROOFS for spec/42_immediate_alu.md: the addition, the two bitwise operations and the upper load of an immediate.
Each is a register write and nothing else, by `exec_writes_register`; what is left is what the value written is. -/

namespace Sys2Proof.Machine

/-! ### The extended immediate (R170 to R172) -/

/-- A word plus the sign-extended immediate is their integer sum modulo 2^32 (D8). -/
theorem toNat_add_sext32 (a : Word) (imm16 : BitVec 16) :
    ((a + sext32 imm16).toNat : Int) = ((a.toNat : Int) + imm16.toInt) % 2 ^ 32 := by
  have hsigned : (sext32 imm16).toInt = imm16.toInt := BitVec.toInt_signExtend_of_le (by decide)
  rw [← hsigned, BitVec.toInt_eq_toNat_cond, BitVec.toNat_add]
  split <;> omega

theorem getLsbD_zext32 (imm16 : BitVec 16) (k : Nat) :
    (zext32 imm16).getLsbD k = (decide (k < 16) && imm16.getLsbD k) := by
  rw [zext32, BitVec.getLsbD_setWidth]
  by_cases hk : k < 16
  · rw [decide_eq_true hk, decide_eq_true (hk.trans (by decide))]
  · simp [BitVec.getLsbD_of_ge imm16 k (Nat.le_of_not_lt hk)]

/-! ### The four instructions (R170 to R173) -/

/-- Settles O13: the value written is the sum of `toNat_add_sext32`. -/
theorem addImmediateWritesRt : Obligations.AddImmediateWritesRt := fun _ _ _ _ =>
  ⟨rfl, exec_writes_result rfl (toNat_add_sext32 _ _)⟩

/-- Settles O14: the value written is the bitwise operation of `x[rs]` and a word whose bits are those of
`getLsbD_zext32`: the lower half is the immediate, the upper half is 0. -/
theorem logicImmediatesZeroExtend : Obligations.LogicImmediatesZeroExtend := by
  intro rs rt imm16 s
  refine ⟨rfl, rfl, exec_writes_result rfl fun k => ?and, exec_writes_result rfl fun k => ?or⟩
  case and => rw [BitVec.getLsbD_and, getLsbD_zext32, Bool.and_left_comm, Bool.and_assoc]
  case or => rw [BitVec.getLsbD_or, getLsbD_zext32]

/-- Settles O15: the value written is `upperImmediate`, the immediate above 16 zeros by `upperImmediate_eq_append`. -/
theorem loadUpperImmediateWritesRt : Obligations.LoadUpperImmediateWritesRt := by
  intro rs rt imm16 s
  rw [← upperImmediate_eq_append]
  exact ⟨rfl, exec_writes_register rfl⟩

end Sys2Proof.Machine
end

section
/-! PROOFS for spec/43_load_store.md: what a load and a store do and when they take MemoryFault, and the two round
trips through one memory word. -/

namespace Sys2Proof.Machine

/-! ### The effective address (R190) -/

/-- The effective address is the only word with the value R190 gives it (D8). -/
theorem effectiveAddress_eq_iff {s : State} {rs : RegIdx} {imm16 : BitVec 16} {ea : Word} :
    effectiveAddress s rs imm16 = ea ↔ (ea.toNat : Int) = ((s.readReg rs).toNat + imm16.toInt : Int) % 2 ^ 32 := by
  rw [← toNat_add_sext32, Int.natCast_inj, BitVec.toNat_inj]
  exact eq_comm

/-! ### One load or store (R191, R192, R194) -/

section
variable {s t : State} {i : Instr} {f : Fault} {d : RegIdx} {a v : Word}

theorem exec_takes_fault (he : effectOf i s = .error f) : ∃ t, exec i s = .next t ∧ FaultedFrom s t f :=
  ⟨_, exec_of_fault he, faultedFrom_takeFault f s⟩

/-- An instruction whose effect is a store and the sequential pc completes with exactly that (R121, R124). -/
theorem exec_stores_word (hm : Memory.wf s.mem)
    (he : effectOf i s = .ok { store := some (a, v), nextPc := sequentialPc s }) :
    ∃ t, exec i s = .next t ∧ WordStored s t a.toNat v ∧ SameRegs s t ∧ t.pc = s.pc + 4 ∧ Retired s t :=
  ⟨_, exec_of_effect he, wordStored_commit hm rfl, sameRegs_commit_of_none rfl, rfl, retired_commit _ _ _⟩

/-- The destination of a register write reads the value written, or 0 where it is a hardwired register 0 (R21). -/
theorem RegWritten.readReg_dest (h : RegWritten s t d v) (hcfg : t.cfg = s.cfg) :
    t.readReg d = if s.cfg.r0Hardwired = true ∧ d = 0 then 0 else v := by
  by_cases hd : s.cfg.r0Hardwired = true ∧ d = 0
  · rw [if_pos hd]
    exact readReg_hardwired (hcfg ▸ hardwired_eq_true.2 hd)
  · rw [if_neg hd, h d, if_pos ⟨rfl, hd⟩]

end

/-- Settles O16: where the address passes the check the load is a register write and nothing else; where it fails the
summary `effectOf` is the fault. -/
theorem loadWordReadsOrFaults : Obligations.LoadWordReadsOrFaults := by
  refine fun rs rt imm16 s => ⟨rfl, fun ea hea => ?_⟩
  obtain rfl := effectiveAddress_eq_iff.2 hea
  exact ⟨fun h => exec_writes_register (effectOf_lw (accessible_iff.2 h)),
    fun h => exec_takes_fault (effectOf_lw_fault (accessible_eq_false.2 h))⟩

/-- Settles O17: where the address passes the check the store is a memory write and nothing else; where it fails the
summary `effectOf` is the fault. -/
theorem storeWordWritesOrFaults : Obligations.StoreWordWritesOrFaults := by
  refine fun rs rt imm16 s hm => ⟨rfl, fun ea hea => ⟨effectiveAddress_eq_iff.1 hea, ?_⟩⟩
  subst hea
  exact ⟨fun h => exec_stores_word hm (effectOf_sw (accessible_iff.2 h)),
    fun h => exec_takes_fault (effectOf_sw_fault (accessible_eq_false.2 h))⟩

/-! ### Round trips (R193) -/

/-- Settles O20: the store leaves `x[rt]` in the word that the load then writes to its destination. -/
theorem storeThenLoadReturnsValue : Obligations.StoreThenLoadReturnsValue := by
  intro rs rt b d imm16 off s t hm hstore hacc hea
  obtain ⟨t', hexec, ⟨hword, -⟩, -, -, -, hcfg, -⟩ := exec_stores_word hm (effectOf_sw (rt := rt) hacc)
  obtain rfl := Host.Outcome.next.inj (hstore.symm.trans hexec)
  rw [← hea, ← hcfg] at hacc
  obtain ⟨u, hload, hreg, -, -, -, hcfg', -⟩ := exec_writes_register (effectOf_lw (rt := d) hacc)
  rw [hea, hword] at hreg
  exact ⟨u, hload, hcfg ▸ hreg.readReg_dest hcfg'⟩

/-- Writing back the word that is read changes nothing. -/
theorem Memory.writeWord_readWord {m : List Host.Cell} (hm : Memory.wf m) (order : ByteOrder) (a : Nat) :
    Memory.writeWord order m a (Memory.readWord order m a) = m := by
  refine Memory.eq_of_readByte_eq (Memory.wf_writeWord hm) hm fun b => ?_
  obtain ⟨h0, h1, h2, h3⟩ := byteOfWord_wordOfBytes order (Memory.readByte m a) (Memory.readByte m (a + 1))
    (Memory.readByte m (a + 2)) (Memory.readByte m (a + 3))
  rw [Memory.readByte_writeWord hm]
  split_ifs with hb
  · obtain rfl | rfl | rfl | rfl : b = a ∨ b = a + 1 ∨ b = a + 2 ∨ b = a + 3 := by omega
    all_goals simpa [Memory.readWord]
  · rfl

/-- Settles O21: the load leaves memory alone and the word in `x[rt]`, so the store writes back what is there; a
hardwired `x[0]` reads 0 whatever was loaded. -/
theorem loadThenStoreLeavesMemory : Obligations.LoadThenStoreLeavesMemory := by
  intro rs rt b imm16 off s t hm hload hacc hea
  obtain ⟨t', hexec, hreg, -, -, -, hcfg, -⟩ := exec_writes_register (effectOf_lw (rt := rt) hacc)
  obtain rfl := Host.Outcome.next.inj (hload.symm.trans hexec)
  have hmem : t.mem = s.mem := (instructionsWriteOnlyTheirDestination _ s t hload).2.1 rfl
  have hvalue := hreg.readReg_dest hcfg
  rw [← hea, ← hcfg] at hacc
  refine ⟨_, exec_of_effect (effectOf_sw hacc), fun hrt => ?kept, fun hrt => ?zero⟩
  case kept =>
    rw [commit_mem, commitStore, hvalue, if_neg hrt, hea, hcfg, hmem]
    exact Memory.writeWord_readWord hm _ _
  case zero =>
    rw [hvalue, if_pos hrt, hea, WordStored, ← hmem]
    exact wordStored_commit (hmem ▸ hm) rfl

end Sys2Proof.Machine
end

section
/-! PROOFS for spec/44_control_transfer.md: the FetchFault that follows a pc which cannot be fetched from, and the
target and frame of the two branches and the three jumps. -/

namespace Sys2Proof.Machine

/-! ### The step after a bad target (R216, R235) -/

section
variable {s t : State}

theorem step_of_not_fetchable (hwf : s.cfg.wf = true) (hst : s.status = .running)
    (hpc : fetchable s.cfg s.pc = false) : step s = .next (takeFault (.fetchFault s.pc) s) := by
  simp [step, stepRequest, hwf, hst, runCycle, fetch, hpc]

/-- A completed step keeps the status and the configuration, so the next one makes the fetch check on the new pc. -/
theorem Retired.faultsAtNextFetch (h : Retired s t) : FaultsAtNextFetch s t := by
  intro hwf hst hpc
  obtain ⟨hstatus, hcfg, -⟩ := h
  rw [← hcfg] at hwf hpc
  exact ⟨_, step_of_not_fetchable hwf (hstatus.trans hst) hpc, faultedFrom_takeFault _ t⟩

end

/-- Settles O27: `Retired.faultsAtNextFetch`, with the fetch check written out by `fetchable_eq_false`. -/
theorem badTargetFaultsAtTheNextStep : Obligations.BadTargetFaultsAtTheNextStep :=
  fun _ _ _ hwf hst _ hretired hpc => hretired.faultsAtNextFetch hwf hst (fetchable_eq_false.2 hpc)

/-! ### A new pc and nothing else (R119, R210) -/

/-- A commit completes the step, and its pc is checked by the next one only. -/
theorem completes_commit (i : Instr) (e : Effect) (s : State) :
    Retired s (commit i e s) ∧ FaultsAtNextFetch s (commit i e s) :=
  ⟨retired_commit i e s, (retired_commit i e s).faultsAtNextFetch⟩

/-- An instruction whose effect is a next pc only completes with exactly that. -/
theorem exec_sets_pc {i : Instr} {s : State} {target : Word} (h : effectOf i s = .ok { nextPc := target }) :
    ∃ t, exec i s = .next t ∧ t.pc = target ∧ SameRegs s t ∧ SameBytes s t ∧ Retired s t ∧ FaultsAtNextFetch s t :=
  ⟨_, exec_of_effect h, rfl, sameRegs_commit_of_none rfl, fun _ => rfl, completes_commit _ _ _⟩

/-! ### Branches (R211, R212) -/

/-- R86: a branch target is the address after the branch plus 4 times the signed offset, modulo 2^32. -/
theorem toNat_branchTarget (pc : Word) (imm16 : BitVec 16) :
    ((branchTarget pc imm16).toNat : Int) = (pc.toNat + 4 + imm16.toInt * 4 : Int) % 2 ^ 32 := by
  have hrange : -32768 ≤ imm16.toInt ∧ imm16.toInt ≤ 32767 :=
    ⟨imm16.le_toInt, Int.le_of_lt_add_one imm16.toInt_lt⟩
  have htarget := branchTarget_ofInt pc hrange
  rw [BitVec.ofInt_toInt] at htarget
  rw [htarget, BitVec.toNat_ofInt]
  omega

/-- The branch target is the only word with that value. -/
theorem branchTarget_eq_iff {pc target : Word} {imm16 : BitVec 16} :
    branchTarget pc imm16 = target ↔ (target.toNat : Int) = (pc.toNat + 4 + imm16.toInt * 4 : Int) % 2 ^ 32 := by
  rw [← toNat_branchTarget, Int.natCast_inj, BitVec.toNat_inj]
  exact eq_comm

/-- Settles O22: a branch sets the pc only, and `branchPc_beq`, `branchPc_bne` read its test as the equality of the two
registers. -/
theorem branchesCompareRegisters : Obligations.BranchesCompareRegisters := by
  refine fun rs rt imm16 s => ⟨rfl, rfl, fun target htarget => ?_⟩
  obtain rfl := branchTarget_eq_iff.2 htarget
  rw [← branchPc_beq, ← branchPc_bne]
  exact ⟨exec_sets_pc rfl, exec_sets_pc rfl⟩

/-! ### Jumps (R213 to R215) -/

/-- Register 31 is never the hardwired one. -/
theorem hardwired_linkRegister (c : Config) : hardwired c linkRegister = false :=
  hardwired_eq_false.2 fun h => absurd h.2 (by decide)

/-- Settles O23: `j` sets the pc only; `jal` also writes the link register, a write that R0_HARDWIRED does not
suppress. -/
theorem jumpsSetAbsoluteTarget : Obligations.JumpsSetAbsoluteTarget := by
  intro target26 s
  have htarget : (jumpTarget target26).toNat = target26.toNat * 4 := jumpTargetsAreInRange.1 target26
  refine ⟨rfl, rfl, fun _ _ => rfl, ?j, ?jal⟩
  case j =>
    obtain ⟨t, hexec, hpc, hframe⟩ := exec_sets_pc (i := .j target26) (s := s) rfl
    exact ⟨t, hexec, hpc ▸ htarget, hframe⟩
  case jal =>
    refine ⟨_, exec_of_effect rfl, htarget, fun r => ?_, fun _ => rfl, completes_commit _ _ _⟩
    simp only [readReg_commit, hardwired_linkRegister, and_true]
    rfl

/-- Settles O24: the only effect of `jr` is the next pc `x[rs]`. -/
theorem jumpRegisterCopiesRs : Obligations.JumpRegisterCopiesRs := fun _ _ _ _ _ => ⟨rfl, exec_sets_pc rfl⟩

end Sys2Proof.Machine
end

section
/-! PROOFS for spec/60_exceptions.md: the cause and the record of each fault, and the stops that no request of the host
undoes. -/

namespace Sys2Proof.Machine

/-! ### What a fault tells of the step that took it (R230, R237) -/

section
variable {s t : State} {i : Instr} {f : Fault}

/-- A running machine that fetches a word which does not decode takes the fault of the decoder's error. -/
theorem step_of_decodeError {w : Word} {e : DecodeError} (hwf : s.cfg.wf = true) (hst : s.status = .running)
    (hfetch : fetch s = some w) (hdec : decodeWord w = .error e) :
    step s = .next (takeFault (decodeFault e s.pc w) s) := by
  simp [step, stepRequest, hwf, hst, runCycle, hfetch, decodeAndExecute, hdec]

/-- A commit keeps the machine running, so `exec` ends Faulted exactly where the summary `effectOf` is that fault. -/
theorem exec_faults_iff (hst : s.status = .running) :
    (∃ t, exec i s = .next t ∧ t.status = .faulted f) ↔ effectOf i s = .error f := by
  constructor
  · rintro ⟨t, hexec, hfault⟩
    rcases exec_next_cases hexec with ⟨e, -, rfl⟩ | ⟨g, hg, rfl⟩
    · cases hst.symm.trans hfault
    · cases hfault
      exact hg
  · exact fun he => ⟨_, exec_of_fault he, rfl⟩

/-- `effectOf_error` with its converse (R234). -/
theorem effectOf_eq_error_iff :
    effectOf i s = .error f ↔ ∃ rs rt imm, (i = .lw rs rt imm ∨ i = .sw rs rt imm) ∧
      f = .memoryFault s.pc (effectiveAddress s rs imm) ∧ accessible s.cfg (effectiveAddress s rs imm) = false := by
  refine ⟨effectOf_error, ?_⟩
  rintro ⟨rs, rt, imm, rfl | rfl, rfl, hacc⟩
  · exact effectOf_lw_fault hacc
  · exact effectOf_sw_fault hacc

/-- A step that ends a running machine Faulted failed the fetch check, or fetched a word that the decoder rejects or
whose instruction takes the fault. -/
theorem step_faulted_cases (hst : s.status = .running) (hstep : step s = .next t) (hfault : t.status = .faulted f) :
    (fetchable s.cfg s.pc = false ∧ f = .fetchFault s.pc) ∨
    (∃ w e, fetch s = some w ∧ decodeWord w = .error e ∧ f = decodeFault e s.pc w) ∨
    (∃ w i, fetch s = some w ∧ decodeWord w = .ok i ∧ effectOf i s = .error f) := by
  rcases step_cases s with ⟨-, hs⟩ | ⟨-, hstop, hs⟩ | ⟨-, -, hpc, hs⟩ | ⟨e, -, -, hpc, hdec, hs⟩ |
    ⟨i, g, -, -, hpc, hdec, he, hs⟩ | ⟨i, e, -, -, -, -, -, hs⟩ <;> cases hs.symm.trans hstep
  · exact absurd hst hstop
  · cases hfault
    exact .inl ⟨hpc, rfl⟩
  · cases hfault
    exact .inr (.inl ⟨_, e, fetch_eq_some.2 ⟨hpc, rfl⟩, hdec, rfl⟩)
  · cases hfault
    exact .inr (.inr ⟨_, i, fetch_eq_some.2 ⟨hpc, rfl⟩, hdec, he⟩)
  · cases hst.symm.trans hfault

/-- A load raises ProgramTooLarge and no other fault (R236, R265). -/
theorem load_status_eq_faulted_iff {c : Config} {ws : List Word} :
    (load c ws).status = .faulted f ↔ c.imemWords < ws.length ∧ f = .programTooLarge ws.length := by
  rcases le_or_gt ws.length c.imemWords with hfits | hlarge
  · simp [load_status_of_fits hfits, hfits]
  · simp [load_status_of_tooLarge hlarge, hlarge, eq_comm]

end

/-! ### Each fault and its cause (R232 to R236) -/

/-- Settles O37: the fetch check, written out by `fetchable_eq_false`, comes first in a step. -/
theorem badPcTakesFetchFault : Obligations.BadPcTakesFetchFault := fun s hwf hst hpc =>
  ⟨_, step_of_not_fetchable hwf hst (fetchable_eq_false.2 hpc), faultedFrom_takeFault _ s⟩

/-- Settles O38: the two sets of words are those of the decoder's two errors, by `everyWordIsClassified`. -/
theorem unsupportedWordsTakeTheirFault : Obligations.UnsupportedWordsTakeTheirFault := by
  intro s w hwf hst hfetch
  obtain ⟨hopcode, hfunct, -⟩ := everyWordIsClassified w
  exact ⟨fun h => ⟨_, step_of_decodeError hwf hst hfetch (hopcode.2 h), faultedFrom_takeFault _ s⟩,
    fun h => ⟨_, step_of_decodeError hwf hst hfetch (hfunct.2 h), faultedFrom_takeFault _ s⟩⟩

/-- Settles O18: by `effectOf_eq_error_iff`, with the failed data check written out by `accessible_eq_false`. -/
theorem memoryFaultExactlyOnBadLoadOrStore : Obligations.MemoryFaultExactlyOnBadLoadOrStore := by
  intro i s pc ea hst
  rw [exec_faults_iff hst, effectOf_eq_error_iff]
  constructor
  · rintro ⟨rs, rt, imm, hi, hrecord, hacc⟩
    cases hrecord
    exact ⟨rfl, accessible_eq_false.1 hacc, rs, rt, imm, hi, rfl⟩
  · rintro ⟨rfl, hbad, rs, rt, imm, hi, rfl⟩
    exact ⟨rs, rt, imm, hi, rfl, accessible_eq_false.2 hbad⟩

/-- Settles O39: each way of `step_faulted_cases` gives one kind of record, and what led there is its cause. -/
theorem faultsHaveTheirCause : Obligations.FaultsHaveTheirCause := by
  refine ⟨fun s t f hst hstep hfault => ?step, fun c ws f => load_status_eq_faulted_iff, fun n => rfl⟩
  rcases step_faulted_cases hst hstep hfault with ⟨hpc, rfl⟩ | ⟨w, e, hfetch, hdec, rfl⟩ | ⟨w, i, hfetch, hdec, he⟩
  · exact ⟨rfl, rfl, fetchable_eq_false.1 hpc⟩
  · obtain ⟨hopcode, hfunct, -⟩ := everyWordIsClassified w
    cases e with
    | unsupportedOpcode => exact ⟨rfl, hfetch, hopcode.1 hdec, rfl⟩
    | unsupportedFunct =>
      obtain ⟨hzero, hunsupported⟩ := hfunct.1 hdec
      exact ⟨rfl, hfetch, hzero, hunsupported, rfl⟩
  · obtain ⟨rs, rt, imm, hi, rfl, hacc⟩ := effectOf_error he
    have hword : decodeWord w = .ok (.lw rs rt imm) ∨ decodeWord w = .ok (.sw rs rt imm) := by simpa [hdec] using hi
    exact ⟨rfl, rfl, accessible_eq_false.1 hacc, w, rs, rt, imm, hfetch, rfl, hword⟩

/-! ### No way out of a stop (R236, R240, R247) -/

/-- A stopped machine answers either request with the state it is in. -/
theorem serve_of_not_running {s : State} (hwf : s.cfg.wf = true) (hst : s.status ≠ .running) (q : HostRequest) :
    serve q s = .next s := by
  cases q with
  | step => exact step_of_not_running hwf hst
  | halt => exact congrArg _ ((haltRequestOnlyStops s).2 hst)

/-- Settles O45: by induction on the requests, each of which is answered by the same state. -/
theorem terminalStatesNeverChange : Obligations.TerminalStatesNeverChange := by
  intro s rs hwf hst
  induction rs with
  | nil => rfl
  | cons q rs ih =>
    rw [serveAll, serve_of_not_running hwf hst]
    exact ih

/-- Settles O44: the load leaves a Faulted machine, which no request changes. -/
theorem tooLargeProgramNeverSteps : Obligations.TooLargeProgramNeverSteps := by
  intro c ws rs hwf hlarge
  have hstatus := load_status_of_tooLarge hlarge
  have hstopped : (load c ws).status ≠ .running := by rw [hstatus]; exact nofun
  exact ⟨hstatus, terminalStatesNeverChange _ rs (by rwa [load_cfg]) hstopped⟩

end Sys2Proof.Machine
end

section
/-! PROOFS for spec/70_reset_and_hazards.md: the reset values of the reference configuration, and the words that are 0
after the load. -/

namespace Sys2Proof.Machine

/-! ### Reset values (R261 to R263) -/

/-- The registers after reset as the ports read them: `load_readReg` for the empty program (R261, D5, D6). -/
theorem readReg_resetWith {c : Config} (hwf : c.wf = true) (r : RegIdx) :
    (State.resetWith c).readReg r = if r.toNat = c.spIndex then c.spReset else 0 := by
  simpa only [load_nil] using load_readReg hwf [] r

/-- Settles O41: the registers by `readReg_resetWith`, the pc, memory and status by the values of `State.resetWith`. -/
theorem referenceResetValues : Obligations.ReferenceResetValues := by
  have hwf : Config.reference.wf = true := by decide
  refine ⟨?preset, fun r hr => ?other, rfl, fun a => rfl, rfl⟩
  case preset => exact readReg_resetWith hwf 29
  case other =>
    have hne : r.toNat ≠ Config.reference.spIndex := fun h => hr (BitVec.eq_of_toNat_eq h)
    exact (readReg_resetWith hwf r).trans (if_neg hne)

/-- Settles O42: data words by `load_dmem`. A word of the instruction segment past the program exists only where the
program fits, and there `load_imem_of_fits` reads 0 after the program's last word. -/
theorem resetZeroesMemory : Obligations.ResetZeroesMemory := by
  refine fun c ws _ => ⟨fun k _ => load_dmem c ws k, fun k hk hpast => ?_⟩
  rw [load_imem_of_fits (hpast.trans hk.le), List.getD_eq_default _ _ hpast]

end Sys2Proof.Machine
end

section
/-! PROOFS for spec/30_encoding.md: decoding the word of an instruction, the ignored fields, and the range of the branch
targets. -/

namespace Sys2Proof

/-! ### The decoder on an assembled word (R82 to R84, R90)

In each format the opcode of the word chooses the format, the code finds the operation it was written for, and each
field holds what was put there. -/

theorem decodeWord_encodeR (op : ROp) (rs rt rd : RegIdx) (shamt : BitVec 5) :
    decodeWord (encodeR op rs rt rd shamt) = .ok (op.instr rs rt rd shamt) := by
  simp only [decodeWord, opcodeField_encodeR, functField_encodeR, rOpOf_functCode, rsField_encodeR, rtField_encodeR,
    rdField_encodeR, shamtField_encodeR, if_true]

theorem decodeWord_encodeJ (op : JOp) (target26 : BitVec 26) :
    decodeWord (encodeJ op target26) = .ok (op.instr target26) := by
  simp only [decodeWord, opcodeField_encodeJ, if_neg (jCode_ne_rOpcode op), jOpOf_jCode, targetField_encodeJ]

theorem decodeWord_encodeI (op : IOp) (rs rt : RegIdx) (imm16 : BitVec 16) :
    decodeWord (encodeI op rs rt imm16) = .ok (op.instr rs rt imm16) := by
  simp only [decodeWord, opcodeField_encodeI, if_neg (iCode_ne_rOpcode op), jOpOf_iCode, iOpOf_iCode, rsField_encodeI,
    rtField_encodeI, immField_encodeI]

/-- Settles O1: each instruction is assembled in its format, and there the decoder reads it back. -/
theorem decodeAfterEncode : Obligations.DecodeAfterEncode := by
  intro i
  cases i with
  | sll | srl | jr | addu | subu | and | or | slt => exact decodeWord_encodeR _ _ _ _ _
  | j | jal => exact decodeWord_encodeJ _ _
  | beq | bne | addiu | andi | ori | lui | lw | sw => exact decodeWord_encodeI _ _ _ _

end Sys2Proof

namespace Sys2Proof.Machine

/-! ### Ignored fields (R91, D12) -/

/-- No effect or fault depends on a field that R91 says is ignored. -/
theorem effectOf_canonicalize (i : Instr) (s : State) : effectOf i.canonicalize s = effectOf i s := by
  cases i <;> rfl

/-- Settles O5: both instructions have the same effect or fault by `effectOf_canonicalize`, and only the retire record
names the instruction it came from. -/
theorem ignoredFieldsChangeNothing : Obligations.IgnoredFieldsChangeNothing := by
  intro i s
  have hcanonical := effectOf_canonicalize i s
  cases he : effectOf i s with
  | ok e => exact ⟨_, _, exec_of_effect he, exec_of_effect (hcanonical.trans he), rfl, rfl, rfl, rfl, rfl⟩
  | error f => exact ⟨_, _, exec_of_fault he, exec_of_fault (hcanonical.trans he), rfl, rfl, rfl, rfl, rfl⟩

/-! ### The range of the branch targets (R86, D17) -/

theorem branchTarget_eq_add_ofInt (pc : Word) (imm16 : BitVec 16) :
    branchTarget pc imm16 = pc + 4 + BitVec.ofInt 32 (imm16.toInt * 4) := by
  rw [branchTarget, BitVec.shiftLeft_eq_mul_twoPow, BitVec.ofInt_mul]
  rfl

/-- Settles O7: by `branchTarget_eq_add_ofInt` the distances are 4 times the signed 16-bit values, and every integer
from -32768 to 32767 is one of these. -/
theorem branchTargetsAreInRange : Obligations.BranchTargetsAreInRange := by
  intro pc target
  constructor
  · rintro ⟨imm16, rfl⟩
    have hlo : -32768 ≤ imm16.toInt := imm16.le_toInt
    have hhi : imm16.toInt < 32768 := imm16.toInt_lt
    exact ⟨imm16.toInt * 4, by omega, by omega, by omega, branchTarget_eq_add_ofInt pc imm16⟩
  · rintro ⟨d, hlo, hhi, hd, rfl⟩
    have hoffset : (BitVec.ofInt 16 (d / 4)).toInt = d / 4 :=
      BitVec.toInt_ofInt_eq_self (by decide) (by omega) (by omega)
    exact ⟨BitVec.ofInt 16 (d / 4), by rw [branchTarget_eq_add_ofInt, hoffset, Int.ediv_mul_cancel (by omega)]⟩

end Sys2Proof.Machine
end
